-- ==== Sys2Proof/Word.lean ====
section
/-! DEFINITION. The data sizes of the machine (spec/00_scope.md R6). -/

namespace Sys2Proof

/-- A byte: the unit an address names (R6, R40). -/
abbrev Byte := BitVec 8

/-- A halfword: the unit the opcode patterns are printed in (R5, R6). -/
abbrev Half := BitVec 16

/-- A word: the contents of a general register, an address, the PC (R6). -/
abbrev Word := BitVec 32

end Sys2Proof
end

