-- ==== Sys2Proof/Config.lean ====
section
/-! DEFINITION. The parameters of the model (spec/00_scope.md R4) and the values `State.reset` gives those the spec leaves open. -/

namespace Sys2Proof

/-- A run of consecutive byte addresses, `base` to `base + size - 1`. -/
structure Region where
  base : Nat
  size : Nat
  deriving DecidableEq, Repr

/-- The parameters of the step function that stay fixed for a run (R4, R38). The spec keeps them outside the state;
the host's step takes a state alone, so the state carries them unchanged (log 4, DESIGN CHOICE). -/
structure Params where
  /-- `mem_valid`, the byte addresses that hold memory (R49), as a list of regions. -/
  memValid : List Region
  /-- `code_region`, the byte addresses that hold the program image (R53), as a list of regions. -/
  codeRegion : List Region
  /-- `JMP_ENCODING_ADMITTED`, whether the decoder admits the two JMP patterns (R80, decision D20). -/
  jmpEncodingAdmitted : Bool
  deriving DecidableEq, Repr

/-- `JMP_ENCODING_ADMITTED` as the spec fixes it by default: true (R4, D20). -/
def Config.jmpEncodingAdmitted : Bool := true

/-- `ENTRY_PC` of `State.reset`. DESIGN CHOICE (log 1): the spec leaves it open and launches its programs here. -/
def Config.entryPc : Word := 0x00001000#32

/-- Every entry of `INIT_GR` of `State.reset`. DESIGN CHOICE (log 2): the spec leaves it open. -/
def Config.initGr : Word := 0x00000000#32

/-- Every flag of `INIT_FLAGS` of `State.reset`. DESIGN CHOICE (log 2): the spec leaves it open. -/
def Config.initFlag : Bool := false

/-- What a byte that memory does not list reads as. DESIGN CHOICE (log 3): `INIT_MEM` is open. -/
def Config.unlistedByte : Byte := 0x00#8

/-- `mem_valid` of `State.reset`: the whole address space. DESIGN CHOICE (log 5): the spec leaves it open. -/
def Config.memValid : List Region := [{ base := 0, size := 4294967296 }]

/-- `code_region` of `State.reset`: no program is loaded. DESIGN CHOICE (log 6): the spec leaves it open. -/
def Config.codeRegion : List Region := []

end Sys2Proof
end

