-- ==== Sys2Proof/Syntax.lean ====
section
/-! DEFINITION. The instructions: one constructor per row of spec/opcode_table.json (spec/00_scope.md R2, spec/30_encoding.md R80). -/

namespace Sys2Proof

/-- A register number: the unsigned value of a 5-bit field, `r0` to `r31` (R9, R20). -/
abbrev Reg := BitVec 5

/-- The sixteen condition codes of Table 5-5 (R121), each named by the first of its mnemonics without the `B` (R87). -/
inductive Cond where
  | v | l | e | nh | n | r | lt | le | nv | nl | ne | h | p | sa | ge | gt
  deriving DecidableEq, Repr

/-- An instruction. Operands stand in assembler order (R86). A displacement is carried by its encoded bits alone: its
bit 0 is the constant 0 (R75 to R79) and is appended where the operand is formed (Machine/Operands.lean). -/
inductive Instr where
  /-- `ADD reg1, reg2` (R102) -/
  | addReg (reg1 reg2 : Reg)
  /-- `ADD imm5, reg2` (R103) -/
  | addImm5 (imm5 : BitVec 5) (reg2 : Reg)
  /-- `CMP reg1, reg2` (R104) -/
  | cmpReg (reg1 reg2 : Reg)
  /-- `CMP imm5, reg2` (R105) -/
  | cmpImm5 (imm5 : BitVec 5) (reg2 : Reg)
  /-- `MOV reg1, reg2` (R106), `reg2` not `r0` (R83) -/
  | movReg (reg1 reg2 : Reg)
  /-- `MOV imm5, reg2` (R107), `reg2` not `r0` (R83) -/
  | movImm5 (imm5 : BitVec 5) (reg2 : Reg)
  /-- `MOV imm32, reg1` (R108) -/
  | movImm32 (imm32 : BitVec 32) (reg1 : Reg)
  /-- `SUB reg1, reg2` (R109) -/
  | sub (reg1 reg2 : Reg)
  /-- `BV disp9` (R122); in this and the next fifteen, the higher 8 bits of `disp9` (R75) -/
  | bv (disp9Hi : BitVec 8)
  /-- `BL disp9`, also `BC` (R123) -/
  | bl (disp9Hi : BitVec 8)
  /-- `BE disp9`, also `BT` and `BZ` (R124) -/
  | be (disp9Hi : BitVec 8)
  /-- `BNH disp9` (R125) -/
  | bnh (disp9Hi : BitVec 8)
  /-- `BN disp9` (R126) -/
  | bn (disp9Hi : BitVec 8)
  /-- `BR disp9` (R127) -/
  | br (disp9Hi : BitVec 8)
  /-- `BLT disp9` (R128) -/
  | blt (disp9Hi : BitVec 8)
  /-- `BLE disp9` (R129) -/
  | ble (disp9Hi : BitVec 8)
  /-- `BNV disp9` (R130) -/
  | bnv (disp9Hi : BitVec 8)
  /-- `BNL disp9`, also `BNC` (R131) -/
  | bnl (disp9Hi : BitVec 8)
  /-- `BNE disp9`, also `BF` and `BNZ` (R132) -/
  | bne (disp9Hi : BitVec 8)
  /-- `BH disp9` (R133) -/
  | bh (disp9Hi : BitVec 8)
  /-- `BP disp9` (R134) -/
  | bp (disp9Hi : BitVec 8)
  /-- `BSA disp9` (R135) -/
  | bsa (disp9Hi : BitVec 8)
  /-- `BGE disp9` (R136) -/
  | bge (disp9Hi : BitVec 8)
  /-- `BGT disp9` (R137) -/
  | bgt (disp9Hi : BitVec 8)
  /-- `JR disp22` (R139): the higher 21 bits of `disp22` (R77) -/
  | jrDisp22 (disp22Hi : BitVec 21)
  /-- `JR disp32` (R140): the higher 31 bits of `disp32` (R79) -/
  | jrDisp32 (disp32Hi : BitVec 31)
  /-- `JMP [reg1]` (R141) -/
  | jmpReg (reg1 : Reg)
  /-- `JMP disp32 [reg1]` (R142): the higher 31 bits of `disp32` (R79) -/
  | jmpDisp32 (disp32Hi : BitVec 31) (reg1 : Reg)
  /-- `MUL reg1, reg2, reg3` (R150) -/
  | mulReg (reg1 reg2 reg3 : Reg)
  /-- `MUL imm9, reg2, reg3` (R151) -/
  | mulImm9 (imm9 : BitVec 9) (reg2 reg3 : Reg)
  /-- `ST.W reg2, disp16 [reg1]` (R160): the higher 15 bits of `disp16` (R76) -/
  | stwDisp16 (reg2 : Reg) (disp16Hi : BitVec 15) (reg1 : Reg)
  /-- `ST.W reg3, disp23 [reg1]` (R161): the higher 22 bits of `disp23` (R78) -/
  | stwDisp23 (reg3 : Reg) (disp23Hi : BitVec 22) (reg1 : Reg)
  /-- `LD.W disp16 [reg1], reg2` (R170): the higher 15 bits of `disp16` (R76) -/
  | ldwDisp16 (disp16Hi : BitVec 15) (reg1 reg2 : Reg)
  /-- `LD.W disp23 [reg1], reg3` (R171): the higher 22 bits of `disp23` (R78) -/
  | ldwDisp23 (disp23Hi : BitVec 22) (reg1 reg3 : Reg)
  deriving DecidableEq, Repr

end Sys2Proof
end

