-- ==== Sys2Proof/WellFormed.lean ====
section
/-! DEFINITION. Which instructions have an encoding (spec/30_encoding.md R83): the types of the operands carry every
other bound, so the one check is that the two short MOV forms do not name `r0` as `reg2`. -/

namespace Sys2Proof

/-- The instruction has an encoding: `MOV reg1, reg2` and `MOV imm5, reg2` must not name `r0` as `reg2` (R83); every
other form may name any register (R22) and carries its operand at exactly the width the encoding has. -/
def Instr.wf : Instr → Bool
  | .movReg _ reg2 => reg2 != 0#5
  | .movImm5 _ reg2 => reg2 != 0#5
  | .addReg _ _ | .addImm5 _ _ | .cmpReg _ _ | .cmpImm5 _ _ | .movImm32 _ _ | .sub _ _ => true
  | .bv _ | .bl _ | .be _ | .bnh _ | .bn _ | .br _ | .blt _ | .ble _ => true
  | .bnv _ | .bnl _ | .bne _ | .bh _ | .bp _ | .bsa _ | .bge _ | .bgt _ => true
  | .jrDisp22 _ | .jrDisp32 _ | .jmpReg _ | .jmpDisp32 _ _ => true
  | .mulReg _ _ _ | .mulImm9 _ _ _ => true
  | .stwDisp16 _ _ _ | .stwDisp23 _ _ _ | .ldwDisp16 _ _ _ | .ldwDisp23 _ _ _ => true

end Sys2Proof
end

