-- ==== Sys2Proof/Decode.lean ====
section
/-! DEFINITION. Instruction words: the bit fields, the length rule, the decoder and, after it, the encoder
(spec/30_encoding.md R60 to R85). Halfword `hw0` holds the spec's bits 15..0, `hw1` bits 31..16, `hw2` bits 47..32 (R5). -/

namespace Sys2Proof

/-! ### Bit fields -/

/-- Bits 15 to 11 of a halfword: `reg2` of `hw0`, `reg3` of `hw1` (R9, R61). -/
def top5 (hw : Half) : BitVec 5 := hw.extractLsb' 11 5

/-- Bits 4 to 0 of a halfword: `reg1` or `imm5` of `hw0` (R9, R72), the Format XIV sub-opcode of `hw1` (R71). -/
def low5 (hw : Half) : BitVec 5 := hw.extractLsb' 0 5

/-- The six opcode bits 10 to 5 of `hw0` (R61, R62). -/
def op6 (hw0 : Half) : BitVec 6 := hw0.extractLsb' 5 6

/-- The five opcode bits 10 to 6 of Format V (R62, R66). -/
def op5 (hw0 : Half) : BitVec 5 := hw0.extractLsb' 6 5

/-- The four opcode bits 10 to 7 of Format III (R62, R65). -/
def op4 (hw0 : Half) : BitVec 4 := hw0.extractLsb' 7 4

/-- The condition code of Format III, bits 3 to 0 (R65). -/
def condCode (hw0 : Half) : BitVec 4 := hw0.extractLsb' 0 4

/-- Bit 0 of a halfword; of `hw1` it is the spec's bit 16 (R66 to R68, R84). -/
def bit0 (hw : Half) : BitVec 1 := hw.extractLsb' 0 1

/-- Bits 15 to 1 of a halfword: of `hw1` the displacement bits 31 to 17 (R66 to R68). -/
def top15 (hw : Half) : BitVec 15 := hw.extractLsb' 1 15

/-- The eight displacement bits of Format III: `insn[15:11] :: insn[6:4]` (R75). -/
def disp9Bits (hw0 : Half) : BitVec 8 := hw0.extractLsb' 11 5 ++ hw0.extractLsb' 4 3

/-- The 21 displacement bits of Format V: `insn[5:0] :: insn[31:17]` (R77). -/
def disp22Bits (hw0 hw1 : Half) : BitVec 21 := hw0.extractLsb' 0 6 ++ top15 hw1

/-- The 22 displacement bits of Format XIV: `insn[47:32] :: insn[26:21]` (R78). -/
def disp23Bits (hw1 hw2 : Half) : BitVec 22 := hw2 ++ hw1.extractLsb' 5 6

/-- The 31 displacement bits of Format VI: `insn[47:32] :: insn[31:17]` (R79). -/
def disp32Bits (hw1 hw2 : Half) : BitVec 31 := hw2 ++ top15 hw1

/-- The 9-bit immediate of Format XII: `insn[21:18] :: insn[4:0]` (R73). -/
def imm9Bits (hw0 hw1 : Half) : BitVec 9 := hw1.extractLsb' 2 4 ++ low5 hw0

/-! ### Condition codes -/

/-- The code `cccc` of a condition (R121). -/
def Cond.code : Cond → BitVec 4
  | .v => 0b0000#4 | .l => 0b0001#4 | .e => 0b0010#4 | .nh => 0b0011#4
  | .n => 0b0100#4 | .r => 0b0101#4 | .lt => 0b0110#4 | .le => 0b0111#4
  | .nv => 0b1000#4 | .nl => 0b1001#4 | .ne => 0b1010#4 | .h => 0b1011#4
  | .p => 0b1100#4 | .sa => 0b1101#4 | .ge => 0b1110#4 | .gt => 0b1111#4

/-- The Bcond instruction of a condition and the higher 8 bits of `disp9` (R87, R120). -/
def bcond : Cond → BitVec 8 → Instr
  | .v, d => .bv d | .l, d => .bl d | .e, d => .be d | .nh, d => .bnh d
  | .n, d => .bn d | .r, d => .br d | .lt, d => .blt d | .le, d => .ble d
  | .nv, d => .bnv d | .nl, d => .bnl d | .ne, d => .bne d | .h, d => .bh d
  | .p, d => .bp d | .sa, d => .bsa d | .ge, d => .bge d | .gt, d => .bgt d

/-- The condition of a code: all sixteen codes are defined (R121). -/
def condOf (c : BitVec 4) : Cond :=
  match c.toNat with
  | 0 => .v | 1 => .l | 2 => .e | 3 => .nh | 4 => .n | 5 => .r | 6 => .lt | 7 => .le
  | 8 => .nv | 9 => .nl | 10 => .ne | 11 => .h | 12 => .p | 13 => .sa | 14 => .ge | _ => .gt

/-! ### The length rule (R61) -/

/-- R61 (e): the first halfword is shared by JR(1) and Format XIV, and `hw1` tells them apart (R84). -/
def isJrGroup (hw0 : Half) : Bool := top5 hw0 == 0b00000#5 && op5 hw0 == 0b11110#5

/-- R61 (d): `hw0` alone says that the instruction is 6 bytes long (JR(2), MOV(3), JMP(2)). -/
def isSixByte (hw0 : Half) : Bool :=
  (op6 hw0 == 0b010111#6 && top5 hw0 == 0b00000#5 && low5 hw0 == 0b00000#5)
    || (op6 hw0 == 0b110001#6 && top5 hw0 == 0b00000#5)
    || (op6 hw0 == 0b110111#6 && top5 hw0 == 0b00000#5)

/-- R61 (c): `hw0` alone says that the instruction is 4 bytes long (LD.W(1), ST.W(1), MUL). -/
def isFourByte (hw0 : Half) : Bool :=
  op6 hw0 == 0b111001#6 || op6 hw0 == 0b111011#6 || op6 hw0 == 0b111111#6

/-- Whether `hw1` is read: the instruction is longer than 2 bytes, or needs `hw1` to be told apart (R46, R61). -/
def needHw1 (hw0 : Half) : Bool := isFourByte hw0 || isSixByte hw0 || isJrGroup hw0

/-- R61 (e): the halfwords are those of LD.W(2) or ST.W(2), Format XIV. -/
def isFormatXIV (hw0 hw1 : Half) : Bool :=
  top5 hw0 == 0b00000#5 && op6 hw0 == 0b111100#6 && (low5 hw1 == 0b01001#5 || low5 hw1 == 0b01111#5)

/-- Whether `hw2` is read: the instruction is 6 bytes long (R46, R61). -/
def needHw2 (hw0 hw1 : Half) : Bool := isSixByte hw0 || isFormatXIV hw0 hw1

/-! ### The decoder (R80) -/

/-- `jmp` is the parameter `JMP_ENCODING_ADMITTED` (D20). The tests are the rows of R80, fixed bits and all (R85); a
pattern that none of them admits is a reserved encoding, `none` (R82). They are disjoint, so their order is free (R81). -/
def decode (jmp : Bool) (hw0 hw1 hw2 : Half) : Option Instr :=
  if op4 hw0 = 0b1011#4 then some (bcond (condOf (condCode hw0)) (disp9Bits hw0))
  else if op6 hw0 = 0b001110#6 then some (.addReg (low5 hw0) (top5 hw0))
  else if op6 hw0 = 0b010010#6 then some (.addImm5 (low5 hw0) (top5 hw0))
  else if op6 hw0 = 0b001111#6 then some (.cmpReg (low5 hw0) (top5 hw0))
  else if op6 hw0 = 0b010011#6 then some (.cmpImm5 (low5 hw0) (top5 hw0))
  else if op6 hw0 = 0b000000#6 then
    if top5 hw0 = 0b00000#5 then none else some (.movReg (low5 hw0) (top5 hw0))
  else if op6 hw0 = 0b010000#6 then
    if top5 hw0 = 0b00000#5 then none else some (.movImm5 (low5 hw0) (top5 hw0))
  else if op6 hw0 = 0b110001#6 ∧ top5 hw0 = 0b00000#5 then some (.movImm32 (hw2 ++ hw1) (low5 hw0))
  else if op6 hw0 = 0b001101#6 then some (.sub (low5 hw0) (top5 hw0))
  else if top5 hw0 = 0b00000#5 ∧ op5 hw0 = 0b11110#5 ∧ bit0 hw1 = 0b0#1 then some (.jrDisp22 (disp22Bits hw0 hw1))
  else if top5 hw0 = 0b00000#5 ∧ op6 hw0 = 0b111100#6 ∧ low5 hw1 = 0b01111#5 then
    some (.stwDisp23 (top5 hw1) (disp23Bits hw1 hw2) (low5 hw0))
  else if top5 hw0 = 0b00000#5 ∧ op6 hw0 = 0b111100#6 ∧ low5 hw1 = 0b01001#5 then
    some (.ldwDisp23 (disp23Bits hw1 hw2) (low5 hw0) (top5 hw1))
  else if op6 hw0 = 0b010111#6 ∧ top5 hw0 = 0b00000#5 ∧ low5 hw0 = 0b00000#5 ∧ bit0 hw1 = 0b0#1 then
    some (.jrDisp32 (disp32Bits hw1 hw2))
  else if jmp ∧ op6 hw0 = 0b000011#6 ∧ top5 hw0 = 0b00000#5 then some (.jmpReg (low5 hw0))
  else if jmp ∧ op6 hw0 = 0b110111#6 ∧ top5 hw0 = 0b00000#5 ∧ bit0 hw1 = 0b0#1 then
    some (.jmpDisp32 (disp32Bits hw1 hw2) (low5 hw0))
  else if op6 hw0 = 0b111111#6 ∧ hw1.extractLsb' 0 11 = 0b01000100000#11 then
    some (.mulReg (low5 hw0) (top5 hw0) (top5 hw1))
  else if op6 hw0 = 0b111111#6 ∧ hw1.extractLsb' 6 5 = 0b01001#5 ∧ hw1.extractLsb' 0 2 = 0b00#2 then
    some (.mulImm9 (imm9Bits hw0 hw1) (top5 hw0) (top5 hw1))
  else if op6 hw0 = 0b111011#6 ∧ bit0 hw1 = 0b1#1 then some (.stwDisp16 (top5 hw0) (top15 hw1) (low5 hw0))
  else if op6 hw0 = 0b111001#6 ∧ bit0 hw1 = 0b1#1 then some (.ldwDisp16 (top15 hw1) (low5 hw0) (top5 hw0))
  else none

/-! ### Decoding bytes -/

/-- A halfword from its two bytes, the byte at the lower address first: little-endian (R43, decision D5). -/
def halfOfBytes (lo hi : Byte) : Half := hi ++ lo

/-- What a list of bytes at rising addresses begins with. -/
inductive Decoded where
  /-- An instruction and the bytes after it. -/
  | insn (i : Instr) (rest : List Byte)
  /-- A reserved encoding with this first halfword (R82). -/
  | reserved (hw0 : Half)
  /-- A halfword the length rule needs is missing (R61). -/
  | truncated
  deriving DecidableEq, Repr

/-- The decoder's answer for halfwords already read, with the bytes after them. -/
def decodedOf (jmp : Bool) (hw0 hw1 hw2 : Half) (rest : List Byte) : Decoded :=
  match decode jmp hw0 hw1 hw2 with
  | some i => .insn i rest
  | none => .reserved hw0

/-- The instruction a list of bytes begins with: `hw0`, then `hw1` and `hw2` only where the length rule needs them
(R43, R46, R61). Total: every list of bytes is an instruction, a reserved encoding or too short. -/
def decodeBytes (jmp : Bool) : List Byte → Decoded
  | b0 :: b1 :: rest0 =>
    if needHw1 (halfOfBytes b0 b1) then
      match rest0 with
      | b2 :: b3 :: rest1 =>
        if needHw2 (halfOfBytes b0 b1) (halfOfBytes b2 b3) then
          match rest1 with
          | b4 :: b5 :: rest2 =>
            decodedOf jmp (halfOfBytes b0 b1) (halfOfBytes b2 b3) (halfOfBytes b4 b5) rest2
          | _ => .truncated
        else decodedOf jmp (halfOfBytes b0 b1) (halfOfBytes b2 b3) 0#16 rest1
      | _ => .truncated
    else decodedOf jmp (halfOfBytes b0 b1) 0#16 0#16 rest0
  | _ => .truncated

/-! ### Instruction words as numbers -/

/-- Byte `k` of a number laid out with its low byte first. -/
def byteOfNat (w k : Nat) : Byte := BitVec.ofNat 8 (w / 256 ^ k)

/-- The six bytes of the longest instruction whose bits are `w`, bits from `nbits` up being 0, at rising addresses:
bit 0 is the least significant bit of the first halfword (R5) and each halfword is little-endian (R43). -/
def wordBytesOfNat (nbits w : Nat) : List Byte :=
  [byteOfNat (w % 2 ^ nbits) 0, byteOfNat (w % 2 ^ nbits) 1, byteOfNat (w % 2 ^ nbits) 2,
   byteOfNat (w % 2 ^ nbits) 3, byteOfNat (w % 2 ^ nbits) 4, byteOfNat (w % 2 ^ nbits) 5]

/-- The instruction the decoder reads from an instruction whose bits are `w`, numbered as spec/opcode_table.json
numbers them (R5), with `JMP_ENCODING_ADMITTED` at its default. -/
def decodeTableWord (nbits w : Nat) : Option Instr :=
  match decodeBytes Config.jmpEncodingAdmitted (wordBytesOfNat nbits w) with
  | .insn i _ => some i
  | .reserved _ => none
  | .truncated => none

/-! ### The encoder (R63 to R71, R80) -/

/-- Formats I and II: `reg2`, opcode, `reg1` or `imm5` (R63, R64). -/
def formatI (reg2 : BitVec 5) (op : BitVec 6) (low : BitVec 5) : Half := reg2 ++ op ++ low

/-- Format III (R65). -/
def formatIII (d : BitVec 8) (c : BitVec 4) : Half := d.extractLsb' 3 5 ++ 0b1011#4 ++ d.extractLsb' 0 3 ++ c

/-- The second and third halfwords of a Format VI displacement: bit 16 is 0 (R67, R79). -/
def disp32Halves (d : BitVec 31) : List Half := [d.extractLsb' 0 15 ++ 0b0#1, d.extractLsb' 15 16]

/-- The second and third halfwords of Format XIV (R71, R78). -/
def formatXIVHalves (reg3 : Reg) (d : BitVec 22) (sub : BitVec 5) : List Half :=
  [reg3 ++ d.extractLsb' 0 6 ++ sub, d.extractLsb' 6 16]

/-- The halfwords of a well-formed instruction, at rising addresses (R60, R80). -/
def encode : Instr → List Half
  | .addReg reg1 reg2 => [formatI reg2 0b001110#6 reg1]
  | .addImm5 imm5 reg2 => [formatI reg2 0b010010#6 imm5]
  | .cmpReg reg1 reg2 => [formatI reg2 0b001111#6 reg1]
  | .cmpImm5 imm5 reg2 => [formatI reg2 0b010011#6 imm5]
  | .movReg reg1 reg2 => [formatI reg2 0b000000#6 reg1]
  | .movImm5 imm5 reg2 => [formatI reg2 0b010000#6 imm5]
  | .movImm32 imm32 reg1 => [formatI 0b00000#5 0b110001#6 reg1, imm32.extractLsb' 0 16, imm32.extractLsb' 16 16]
  | .sub reg1 reg2 => [formatI reg2 0b001101#6 reg1]
  | .bv d => [formatIII d Cond.v.code]
  | .bl d => [formatIII d Cond.l.code]
  | .be d => [formatIII d Cond.e.code]
  | .bnh d => [formatIII d Cond.nh.code]
  | .bn d => [formatIII d Cond.n.code]
  | .br d => [formatIII d Cond.r.code]
  | .blt d => [formatIII d Cond.lt.code]
  | .ble d => [formatIII d Cond.le.code]
  | .bnv d => [formatIII d Cond.nv.code]
  | .bnl d => [formatIII d Cond.nl.code]
  | .bne d => [formatIII d Cond.ne.code]
  | .bh d => [formatIII d Cond.h.code]
  | .bp d => [formatIII d Cond.p.code]
  | .bsa d => [formatIII d Cond.sa.code]
  | .bge d => [formatIII d Cond.ge.code]
  | .bgt d => [formatIII d Cond.gt.code]
  | .jrDisp22 d => [0b0000011110#10 ++ d.extractLsb' 15 6, d.extractLsb' 0 15 ++ 0b0#1]
  | .jrDisp32 d => 0b0000001011100000#16 :: disp32Halves d
  | .jmpReg reg1 => [formatI 0b00000#5 0b000011#6 reg1]
  | .jmpDisp32 d reg1 => formatI 0b00000#5 0b110111#6 reg1 :: disp32Halves d
  | .mulReg reg1 reg2 reg3 => [formatI reg2 0b111111#6 reg1, reg3 ++ 0b01000100000#11]
  | .mulImm9 imm9 reg2 reg3 =>
    [formatI reg2 0b111111#6 (imm9.extractLsb' 0 5), reg3 ++ 0b01001#5 ++ imm9.extractLsb' 5 4 ++ 0b00#2]
  | .stwDisp16 reg2 d reg1 => [formatI reg2 0b111011#6 reg1, d ++ 0b1#1]
  | .stwDisp23 reg3 d reg1 => formatI 0b00000#5 0b111100#6 reg1 :: formatXIVHalves reg3 d 0b01111#5
  | .ldwDisp16 d reg1 reg2 => [formatI reg2 0b111001#6 reg1, d ++ 0b1#1]
  | .ldwDisp23 d reg1 reg3 => formatI 0b00000#5 0b111100#6 reg1 :: formatXIVHalves reg3 d 0b01001#5

/-- The bytes of a halfword at rising addresses: little-endian (R43). -/
def bytesOfHalf (hw : Half) : List Byte := [hw.extractLsb' 0 8, hw.extractLsb' 8 8]

/-- The bytes of a well-formed instruction at rising addresses. -/
def encodeBytes (i : Instr) : List Byte := (encode i).flatMap bytesOfHalf

/-- The length of an instruction in bytes (R60). -/
def Instr.len : Instr → Nat
  | .addReg _ _ | .addImm5 _ _ | .cmpReg _ _ | .cmpImm5 _ _ | .movReg _ _ | .movImm5 _ _ | .sub _ _ => 2
  | .bv _ | .bl _ | .be _ | .bnh _ | .bn _ | .br _ | .blt _ | .ble _ => 2
  | .bnv _ | .bnl _ | .bne _ | .bh _ | .bp _ | .bsa _ | .bge _ | .bgt _ => 2
  | .jmpReg _ => 2
  | .jrDisp22 _ | .mulReg _ _ _ | .mulImm9 _ _ _ | .stwDisp16 _ _ _ | .ldwDisp16 _ _ _ => 4
  | .movImm32 _ _ | .jrDisp32 _ | .jmpDisp32 _ _ | .stwDisp23 _ _ _ | .ldwDisp23 _ _ _ => 6

end Sys2Proof
end

