-- ==== Sys2Proof/Machine/State.lean ====
section
/-! DEFINITION. The state of the machine (spec/10_state.md R38), the model faults (spec/60_exceptions.md R180), and the
launch states, `State.reset` among them (spec/70_reset_and_hazards.md R200). -/

namespace Sys2Proof.Machine

/-- Memory: (address, byte) pairs in one canonical form, `Memory.wf` (Machine/Ops.lean). An address it does not list
reads as `Config.unlistedByte`. -/
abbrev Memory := List Host.Cell

/-- The five model faults (R180): terminal, precise, and safe, since each stands where the spec gives no meaning. -/
inductive Fault where
  /-- `FetchFault(a)`: raised by the fetch of any instruction when a needed halfword is not valid memory of the program
  image, with that halfword's address, or when the instruction straddles the top of the address space, with the pc
  (R54, R55, R185, R201). Safe. -/
  | fetchFault (a : Word)
  /-- `ReservedInstruction(pc, hw0)`: raised by decode when the fetched bits match no row (R82, R181), and by the two
  short MOV meanings for `reg2 = r0` (R83). Safe. -/
  | reservedInstruction (pc : Word) (hw0 : Half)
  /-- `MisalignedAccess(adr)`: raised by LD.W and ST.W when `adr[1:0] != 0` (R44, R182). Safe. -/
  | misalignedAccess (adr : Word)
  /-- `AccessFault(adr)`: raised by LD.W and ST.W when a byte of the word is not valid memory (R54, R183). Safe. -/
  | accessFault (adr : Word)
  /-- `StoreToCode(adr)`: raised by ST.W when a byte of the word lies in `code_region` (R53, R184). Safe. -/
  | storeToCode (adr : Word)
  deriving DecidableEq, Repr

/-- The one refusal of the interface. Every instruction of the table has a meaning, so nothing raises it. -/
inductive Refusal where
  /-- An instruction with no meaning in the model, named as the opcode table names it: raised by `exec`'s refused arms,
  of which there are none. Safe. -/
  | notModelled (mnemonic : String)
  deriving DecidableEq, Repr

/-- The PSW: exactly five one-bit flags (R29). -/
structure Psw where
  /-- CY, carry or borrow (R30). -/
  cy : Bool
  /-- OV, overflow (R31). -/
  ov : Bool
  /-- S, sign (R32). -/
  s : Bool
  /-- Z, zero (R33). -/
  z : Bool
  /-- SAT, saturated: no instruction writes it (R34). -/
  sat : Bool
  deriving DecidableEq, Repr

/-- The whole state (R38), with the parameters of the step function beside it (log 4). -/
structure State where
  /-- `x[1]` to `x[31]`: entry `k` is register `r(k+1)`. `r0` reads 0 and has no storage (R21, R38). -/
  x : Vector Word 31
  /-- The program counter, the address of the instruction's first byte (R24, R25). -/
  pc : Word
  /-- The five flags (R29). -/
  psw : Psw
  /-- Byte-addressed memory (R40). -/
  mem : Memory
  /-- `none`, or the model fault that ended the run (R38, R186). -/
  fault : Option Fault
  /-- `mem_valid`, `code_region` and `JMP_ENCODING_ADMITTED`: parameters, never changed (R38). -/
  params : Params
  deriving DecidableEq, Repr

/-- The arguments of a run: what the spec leaves open of the launch state, and the parameters (R200, R37). -/
structure Launch where
  /-- `ENTRY_PC`, required even. -/
  entryPc : Word
  /-- `INIT_GR[1..31]`. -/
  initGr : Vector Word 31
  /-- `INIT_FLAGS`, SAT included. -/
  initFlags : Psw
  /-- `INIT_MEM`, the program image included. -/
  initMem : Memory
  /-- `mem_valid`, `code_region`, `JMP_ENCODING_ADMITTED`. -/
  params : Params
  deriving DecidableEq, Repr

/-- The launch state of a run (R200). -/
def State.launch (l : Launch) : State :=
  { x := l.initGr, pc := l.entryPc, psw := l.initFlags, mem := l.initMem, fault := none, params := l.params }

/-- The launch arguments of `State.reset`, each a DESIGN CHOICE: the spec gives none of them (logs 1 to 6). -/
def Launch.reset : Launch :=
  { entryPc := Config.entryPc
    initGr := Vector.replicate 31 Config.initGr
    initFlags :=
      { cy := Config.initFlag, ov := Config.initFlag, s := Config.initFlag, z := Config.initFlag,
        sat := Config.initFlag }
    initMem := []
    params :=
      { memValid := Config.memValid
        codeRegion := Config.codeRegion
        jmpEncodingAdmitted := Config.jmpEncodingAdmitted } }

/-- The machine right after reset: the launch state of `Launch.reset`. The spec has no reset rule, only launch states
(R37, R200), so these are the model's values; no program is loaded. -/
def State.reset : State := State.launch Launch.reset

end Sys2Proof.Machine
end

