-- ==== Sys2Proof/Machine/Ops.lean ====
section
/-! DEFINITION. The named operations of the machine: registers, the pc, memory, the model faults and the fetch of an
instruction (spec/10_state.md, spec/20_memory.md, spec/60_exceptions.md). -/

namespace Sys2Proof.Machine

/-! ### Outcomes -/

/-- What a step answers (Host/Core.lean). -/
abbrev Result := Host.Outcome State Fault Refusal

/-- `raise F`: the step ends with the model fault and no other change. It is the whole of what the spec puts in the
place of taking an exception: nothing is saved and control goes nowhere (R180, R186, R189), and there is no return
(R190). The fault component it sets is `State.afterStep`'s (Safety.lean). -/
def raise (f : Fault) : Result := .fault f

/-! ### General registers -/

/-- `x[r]`: `r0` reads 0 (R7, R21). -/
def State.readReg (s : State) (r : Reg) : Word :=
  if r = 0#5 then 0#32 else s.x[r.toNat - 1]'(by have := r.isLt; omega)

/-- `x[r] <- v`: a write to `r0` is discarded (R7, R21). -/
def State.writeReg (s : State) (r : Reg) (v : Word) : State :=
  if r = 0#5 then s else { s with x := s.x.set (r.toNat - 1) v (by have := r.isLt; omega) }

/-! ### The program counter -/

/-- `pc <- pc + len`, modulo 2^32 (R26, R28). -/
def State.advance (s : State) (len : Word) : State := { s with pc := s.pc + len }

/-- `pc <- t` (R7). -/
def State.jumpTo (s : State) (t : Word) : State := { s with pc := t }

/-- The address `t[31:1] :: 0`: bit 0 masked to 0 (R27, R141). -/
def clearBit0 (t : Word) : Word := t.extractLsb' 1 31 ++ 0b0#1

/-! ### Flags -/

/-- The flags replaced. -/
def State.setPsw (s : State) (p : Psw) : State := { s with psw := p }

/-! ### Memory as a list of cells -/

/-- Addresses rise strictly above `lo` (if any), lie below 2^32, and no entry equals what an unlisted address reads as. -/
def Memory.wfFrom : Option Nat → Memory → Bool
  | _, [] => true
  | lo, (k, b) :: m =>
    (match lo with | none => true | some l => decide (l < k)) && decide (k < 4294967296)
      && (b != Config.unlistedByte) && Memory.wfFrom (some k) m

/-- The canonical form of memory: equal memories are equal lists. -/
def Memory.wf (m : Memory) : Bool := Memory.wfFrom none m

/-- The byte at an address. -/
def Memory.read : Memory → Nat → Byte
  | [], _ => Config.unlistedByte
  | (k, b) :: m, a => if k = a then b else Memory.read m a

/-- Memory with no entry for an address. -/
def Memory.without : Memory → Nat → Memory
  | [], _ => []
  | (k, b) :: m, a => if k = a then Memory.without m a else (k, b) :: Memory.without m a

/-- Memory with an entry put before the first higher address. -/
def Memory.place : Memory → Nat → Byte → Memory
  | [], a, v => [(a, v)]
  | (k, b) :: m, a, v => if a < k then (a, v) :: (k, b) :: m else (k, b) :: Memory.place m a v

/-- One byte stored; storing what an unlisted address reads as removes the entry. -/
def Memory.write (m : Memory) (a : Nat) (v : Byte) : Memory :=
  if v = Config.unlistedByte then Memory.without m a else Memory.place (Memory.without m a) a v

/-! ### Memory of the machine -/

/-- The byte at address `a` (R40). -/
def State.readByte (s : State) (a : Word) : Byte := Memory.read s.mem a.toNat

/-- The byte at address `a` replaced, with no check. -/
def State.writeByte (s : State) (a : Word) (v : Byte) : State := { s with mem := Memory.write s.mem a.toNat v }

/-- A region holds an address. -/
def Region.holds (g : Region) (a : Nat) : Bool := decide (g.base ≤ a) && decide (a < g.base + g.size)

/-- `mem_valid(a)` (R49). -/
def State.memValid (s : State) (a : Word) : Bool := s.params.memValid.any (fun g => Region.holds g a.toNat)

/-- `a` lies in `code_region` (R53). -/
def State.inCode (s : State) (a : Word) : Bool := s.params.codeRegion.any (fun g => Region.holds g a.toNat)

/-- The four byte addresses of the word at `adr` (R41). -/
def wordAddrs (adr : Word) : List Word := [adr, adr + 1#32, adr + 2#32, adr + 3#32]

/-- `adr[1:0] = 0` (R44). -/
def aligned4 (adr : Word) : Bool := adr.extractLsb' 0 2 == 0b00#2

/-- `mem[a+3] :: mem[a+2] :: mem[a+1] :: mem[a]`: little-endian (R41, R42, decision D5). -/
def State.wordAt (s : State) (adr : Word) : Word :=
  s.readByte (adr + 3#32) ++ s.readByte (adr + 2#32) ++ s.readByte (adr + 1#32) ++ s.readByte adr

/-- The four bytes of `v` stored from `adr` up, its low byte first, with no check (R41, R42). -/
def State.putWord (s : State) (adr v : Word) : State :=
  (((s.writeByte adr (v.extractLsb' 0 8)).writeByte (adr + 1#32) (v.extractLsb' 8 8)).writeByte
    (adr + 2#32) (v.extractLsb' 16 8)).writeByte (adr + 3#32) (v.extractLsb' 24 8)

/-- `MemRead(adr, 4)` (R41): the checks in the order of R187. -/
def memRead (s : State) (adr : Word) : Except Fault Word :=
  if aligned4 adr = false then .error (.misalignedAccess adr)
  else if (wordAddrs adr).all s.memValid = false then .error (.accessFault adr)
  else .ok (s.wordAt adr)

/-- `MemWrite(adr, 4, v)` (R41): the checks in the order of R187. -/
def memWrite (s : State) (adr v : Word) : Except Fault State :=
  if aligned4 adr = false then .error (.misalignedAccess adr)
  else if (wordAddrs adr).all s.memValid = false then .error (.accessFault adr)
  else if (wordAddrs adr).any s.inCode = true then .error (.storeToCode adr)
  else .ok (s.putWord adr v)

/-! ### Shared ends of instructions -/

/-- A load's end: `x[r] <- MemRead(adr, 4); pc <- pc + len`, or the fault of the read (R170, R171). -/
def loadWord (s : State) (adr : Word) (r : Reg) (len : Word) : Result :=
  match memRead s adr with
  | .error f => raise f
  | .ok v => .next ((s.writeReg r v).advance len)

/-- A store's end: `MemWrite(adr, 4, v); pc <- pc + len`, or the fault of the write (R160, R161). -/
def storeWord (s : State) (adr v len : Word) : Result :=
  match memWrite s adr v with
  | .error f => raise f
  | .ok t => .next (t.advance len)

/-- A conditional branch's end: `pc <- pc + disp` if taken, else the next instruction, 2 bytes on (R120). -/
def branchIf (taken : Bool) (disp : Word) (s : State) : Result :=
  .next (if taken then s.jumpTo (s.pc + disp) else s.advance 2#32)

/-- A multiply's end: the exact signed product as 64 bits, the low word to `reg2`, then the high word to `reg3`, both
operands read before (R150 to R152, decision D19). -/
def multiplyInto (a b : Word) (reg2 reg3 : Reg) (s : State) : Result :=
  .next ((((s.writeReg reg2 ((BitVec.ofInt 64 (a.toInt * b.toInt)).extractLsb' 0 32)).writeReg reg3
    ((BitVec.ofInt 64 (a.toInt * b.toInt)).extractLsb' 32 32))).advance 4#32)

/-! ### Fetch -/

/-- A byte that may be fetched: valid memory (R46) of the program image, since `code_region` holds at least every byte
the run fetches and a violation is a model fault (R53, R201). DEDUCED (log 7). -/
def State.fetchable (s : State) (a : Word) : Bool := s.memValid a && s.inCode a

/-- The halfword at `a` of the instruction at the pc: `FetchFault(pc)` where `a` wrapped past the top of the address
space (R55), `FetchFault(a)` where a byte may not be fetched (R54, R185), else its two bytes, little-endian (R43). -/
def fetchHalf (s : State) (a : Word) : Except Fault Half :=
  if a.toNat < s.pc.toNat then .error (.fetchFault s.pc)
  else if (s.fetchable a && s.fetchable (a + 1#32)) = false then .error (.fetchFault a)
  else .ok (halfOfBytes (s.readByte a) (s.readByte (a + 1#32)))

/-- The halfwords of the instruction at the pc, each read only where the length rule needs it (R46, R61) and in the
order of R187; one that is not read stands as 0, and decode does not look at it. -/
def fetch (s : State) : Except Fault (Half × Half × Half) :=
  match fetchHalf s s.pc with
  | .error f => .error f
  | .ok hw0 =>
    if needHw1 hw0 then
      match fetchHalf s (s.pc + 2#32) with
      | .error f => .error f
      | .ok hw1 =>
        if needHw2 hw0 hw1 then
          match fetchHalf s (s.pc + 4#32) with
          | .error f => .error f
          | .ok hw2 => .ok (hw0, hw1, hw2)
        else .ok (hw0, hw1, 0#16)
    else .ok (hw0, 0#16, 0#16)

/-- The instruction at the pc, or the model fault that stands instead: none after a fault (R186), the fetch's own
(R185), `ReservedInstruction` where the halfwords match no row (R82, R181). -/
def nextInstr (s : State) : Except Fault Instr :=
  match s.fault with
  | some f => .error f
  | none =>
    match fetch s with
    | .error f => .error f
    | .ok (hw0, hw1, hw2) =>
      match decode s.params.jmpEncodingAdmitted hw0 hw1 hw2 with
      | some i => .ok i
      | none => .error (.reservedInstruction s.pc hw0)

/-! ### Loading bytes from outside -/

/-- Bytes stored from `a` up with no check: what a launch puts in memory before a run (R200), no instruction's effect. -/
def State.putBytes (s : State) (a : Word) : List Byte → State
  | [] => s
  | b :: bs => State.putBytes (s.writeByte a b) (a + 1#32) bs

/-- The regions with the `n` addresses from `a` up added, unless they hold all of them already. -/
def coverBytes (gs : List Region) (a n : Nat) : List Region :=
  if (List.range n).all (fun k => gs.any (fun g => Region.holds g (a + k))) then gs
  else { base := a, size := n } :: gs

end Sys2Proof.Machine
end

