-- ==== Sys2Proof/Machine/Flags.lean ====
section
/-! DEFINITION. The flag computations of ADD, SUB and CMP (spec/40_arithmetic.md R100, R101) and the conditions of Bcond
(spec/41_branch.md R121). -/

namespace Sys2Proof.Machine

/-- A result and the four flags it sets (R100, R101). -/
structure AluResult where
  r : Word
  cy : Bool
  ov : Bool
  s : Bool
  z : Bool
  deriving DecidableEq, Repr

/-- `zext_33(a) + zext_33(b)` (R100). -/
def sum33 (a b : Word) : BitVec 33 := a.setWidth 33 + b.setWidth 33

/-- `AddFlags(a, b)` (R100): CY the carry out of bit 31, OV signed overflow, S and Z of the wrapped sum. -/
def addFlags (a b : Word) : AluResult :=
  { r := (sum33 a b).extractLsb' 0 32
    cy := (sum33 a b).getLsbD 32
    ov := (a.msb == b.msb) && ((sum33 a b).extractLsb' 0 32).msb != a.msb
    s := ((sum33 a b).extractLsb' 0 32).msb
    z := (sum33 a b).extractLsb' 0 32 == 0#32 }

/-- `SubFlags(a, b)`, `a` the minuend (R101): CY the borrow into bit 31, OV signed overflow, S and Z of the wrapped
difference. -/
def subFlags (a b : Word) : AluResult :=
  { r := a - b
    cy := decide (a.toNat < b.toNat)
    ov := (a.msb != b.msb) && (a - b).msb != a.msb
    s := (a - b).msb
    z := a - b == 0#32 }

/-- CY, OV, S and Z written from a result; SAT is not changed (R8, R34). -/
def State.setAluFlags (st : State) (f : AluResult) : State :=
  st.setPsw { cy := f.cy, ov := f.ov, s := f.s, z := f.z, sat := st.psw.sat }

/-- `CondHolds` (R121, R122 to R137): the flag status of Table 5-5. -/
def condHolds (c : Cond) (p : Psw) : Bool :=
  match c with
  | .v => p.ov
  | .l => p.cy
  | .e => p.z
  | .nh => p.cy || p.z
  | .n => p.s
  | .r => true
  | .lt => p.s ^^ p.ov
  | .le => (p.s ^^ p.ov) || p.z
  | .nv => !p.ov
  | .nl => !p.cy
  | .ne => !p.z
  | .h => !(p.cy || p.z)
  | .p => !p.s
  | .sa => p.sat
  | .ge => !(p.s ^^ p.ov)
  | .gt => !((p.s ^^ p.ov) || p.z)

end Sys2Proof.Machine
end

