-- ==== Sys2Proof/Machine/Operands.lean ====
section
/-! DEFINITION. The operand values: immediates, displacements and effective addresses (spec/30_encoding.md R72 to R79,
spec/20_memory.md R50). A displacement's bit 0 is the constant 0 (decision D18 for `disp16` and `disp23`). -/

namespace Sys2Proof.Machine

/-- `sext_32(imm5)` (R72). -/
def imm5Value (imm5 : BitVec 5) : Word := imm5.signExtend 32

/-- `sext_32(imm9)` (R73). -/
def imm9Value (imm9 : BitVec 9) : Word := imm9.signExtend 32

/-- `sext_32(disp9)`, from the higher 8 bits (R75). -/
def disp9Value (d : BitVec 8) : Word := (d ++ 0b0#1 : BitVec 9).signExtend 32

/-- `sext_32(disp16)`, from the higher 15 bits (R76). -/
def disp16Value (d : BitVec 15) : Word := (d ++ 0b0#1 : BitVec 16).signExtend 32

/-- `sext_32(disp22)`, from the higher 21 bits (R77). -/
def disp22Value (d : BitVec 21) : Word := (d ++ 0b0#1 : BitVec 22).signExtend 32

/-- `sext_32(disp23)`, from the higher 22 bits (R78). -/
def disp23Value (d : BitVec 22) : Word := (d ++ 0b0#1 : BitVec 23).signExtend 32

/-- `disp32`, from the higher 31 bits, used as it is (R79). -/
def disp32Value (d : BitVec 31) : Word := d ++ 0b0#1

/-- `adr = x[reg1] + disp`, modulo 2^32 (R50): the one addressing mode of LD.W and ST.W. -/
def effAddr (s : State) (reg1 : Reg) (disp : Word) : Word := s.readReg reg1 + disp

end Sys2Proof.Machine
end

