-- ==== Sys2Proof/Machine/Arithmetic.lean ====
section
/-! DEFINITION. The meanings of ADD, CMP, MOV and SUB (spec/40_arithmetic.md R102 to R109). -/

namespace Sys2Proof.Machine

/-- `ADD reg1, reg2` (R102). -/
def execAddReg (reg1 reg2 : Reg) (s : State) : Result :=
  .next (((s.writeReg reg2 (addFlags (s.readReg reg2) (s.readReg reg1)).r).setAluFlags
    (addFlags (s.readReg reg2) (s.readReg reg1))).advance 2#32)

/-- `ADD imm5, reg2` (R103). -/
def execAddImm5 (imm5 : BitVec 5) (reg2 : Reg) (s : State) : Result :=
  .next (((s.writeReg reg2 (addFlags (s.readReg reg2) (imm5Value imm5)).r).setAluFlags
    (addFlags (s.readReg reg2) (imm5Value imm5))).advance 2#32)

/-- `CMP reg1, reg2` (R104): the minuend is `reg2`; no register is written. -/
def execCmpReg (reg1 reg2 : Reg) (s : State) : Result :=
  .next ((s.setAluFlags (subFlags (s.readReg reg2) (s.readReg reg1))).advance 2#32)

/-- `CMP imm5, reg2` (R105): no register is written. -/
def execCmpImm5 (imm5 : BitVec 5) (reg2 : Reg) (s : State) : Result :=
  .next ((s.setAluFlags (subFlags (s.readReg reg2) (imm5Value imm5))).advance 2#32)

/-- `MOV reg1, reg2` (R106). With `reg2 = r0` the pattern is not this instruction and is reserved (R83). -/
def execMovReg (reg1 reg2 : Reg) (s : State) : Result :=
  if reg2 = 0#5 then raise (.reservedInstruction s.pc (formatI reg2 0b000000#6 reg1))
  else .next ((s.writeReg reg2 (s.readReg reg1)).advance 2#32)

/-- `MOV imm5, reg2` (R107). With `reg2 = r0` the pattern is not this instruction and is reserved (R83). -/
def execMovImm5 (imm5 : BitVec 5) (reg2 : Reg) (s : State) : Result :=
  if reg2 = 0#5 then raise (.reservedInstruction s.pc (formatI reg2 0b010000#6 imm5))
  else .next ((s.writeReg reg2 (imm5Value imm5)).advance 2#32)

/-- `MOV imm32, reg1` (R108): `reg1 = r0` is allowed and writes nothing (decision D22). -/
def execMovImm32 (imm32 : BitVec 32) (reg1 : Reg) (s : State) : Result :=
  .next ((s.writeReg reg1 imm32).advance 6#32)

/-- `SUB reg1, reg2` (R109): `reg2 <- reg2 - reg1`. -/
def execSub (reg1 reg2 : Reg) (s : State) : Result :=
  .next (((s.writeReg reg2 (subFlags (s.readReg reg2) (s.readReg reg1)).r).setAluFlags
    (subFlags (s.readReg reg2) (s.readReg reg1))).advance 2#32)

end Sys2Proof.Machine
end

