-- ==== Sys2Proof/Machine/Branch.lean ====
section
/-! DEFINITION. The meanings of the sixteen conditional branches, of JR and of JMP (spec/41_branch.md R120 to R142). No
branch writes a register, a flag or memory, and none has a fault of its own. -/

namespace Sys2Proof.Machine

/-- `BV disp9`: OV = 1 (R120, R122). -/
def execBv (d : BitVec 8) (s : State) : Result := branchIf (condHolds .v s.psw) (disp9Value d) s

/-- `BL disp9`: CY = 1; also `BC` (R120, R123). -/
def execBl (d : BitVec 8) (s : State) : Result := branchIf (condHolds .l s.psw) (disp9Value d) s

/-- `BE disp9`: Z = 1; also `BT`, `BZ` (R120, R124). -/
def execBe (d : BitVec 8) (s : State) : Result := branchIf (condHolds .e s.psw) (disp9Value d) s

/-- `BNH disp9`: (CY or Z) = 1 (R120, R125). -/
def execBnh (d : BitVec 8) (s : State) : Result := branchIf (condHolds .nh s.psw) (disp9Value d) s

/-- `BN disp9`: S = 1 (R120, R126). -/
def execBn (d : BitVec 8) (s : State) : Result := branchIf (condHolds .n s.psw) (disp9Value d) s

/-- `BR disp9`: always (R120, R127). -/
def execBr (d : BitVec 8) (s : State) : Result := branchIf (condHolds .r s.psw) (disp9Value d) s

/-- `BLT disp9`: (S xor OV) = 1 (R120, R128). -/
def execBlt (d : BitVec 8) (s : State) : Result := branchIf (condHolds .lt s.psw) (disp9Value d) s

/-- `BLE disp9`: ((S xor OV) or Z) = 1 (R120, R129). -/
def execBle (d : BitVec 8) (s : State) : Result := branchIf (condHolds .le s.psw) (disp9Value d) s

/-- `BNV disp9`: OV = 0 (R120, R130). -/
def execBnv (d : BitVec 8) (s : State) : Result := branchIf (condHolds .nv s.psw) (disp9Value d) s

/-- `BNL disp9`: CY = 0; also `BNC` (R120, R131). -/
def execBnl (d : BitVec 8) (s : State) : Result := branchIf (condHolds .nl s.psw) (disp9Value d) s

/-- `BNE disp9`: Z = 0; also `BF`, `BNZ` (R120, R132). -/
def execBne (d : BitVec 8) (s : State) : Result := branchIf (condHolds .ne s.psw) (disp9Value d) s

/-- `BH disp9`: (CY or Z) = 0 (R120, R133). -/
def execBh (d : BitVec 8) (s : State) : Result := branchIf (condHolds .h s.psw) (disp9Value d) s

/-- `BP disp9`: S = 0 (R120, R134). -/
def execBp (d : BitVec 8) (s : State) : Result := branchIf (condHolds .p s.psw) (disp9Value d) s

/-- `BSA disp9`: SAT = 1 (R120, R135). -/
def execBsa (d : BitVec 8) (s : State) : Result := branchIf (condHolds .sa s.psw) (disp9Value d) s

/-- `BGE disp9`: (S xor OV) = 0 (R120, R136). -/
def execBge (d : BitVec 8) (s : State) : Result := branchIf (condHolds .ge s.psw) (disp9Value d) s

/-- `BGT disp9`: ((S xor OV) or Z) = 0 (R120, R137). -/
def execBgt (d : BitVec 8) (s : State) : Result := branchIf (condHolds .gt s.psw) (disp9Value d) s

/-- `JR disp22` (R139): `pc <- pc + sext_32(disp22)`. -/
def execJrDisp22 (d : BitVec 21) (s : State) : Result := .next (s.jumpTo (s.pc + disp22Value d))

/-- `JR disp32` (R140): `pc <- pc + disp32`. -/
def execJrDisp32 (d : BitVec 31) (s : State) : Result := .next (s.jumpTo (s.pc + disp32Value d))

/-- `JMP [reg1]` (R141): `pc <- x[reg1][31:1] :: 0`. -/
def execJmpReg (reg1 : Reg) (s : State) : Result := .next (s.jumpTo (clearBit0 (s.readReg reg1)))

/-- `JMP disp32 [reg1]` (R142): `t = x[reg1] + disp32; pc <- t[31:1] :: 0`. -/
def execJmpDisp32 (d : BitVec 31) (reg1 : Reg) (s : State) : Result :=
  .next (s.jumpTo (clearBit0 (s.readReg reg1 + disp32Value d)))

end Sys2Proof.Machine
end

