-- ==== Sys2Proof/Machine/LoadStore.lean ====
section
/-! DEFINITION. The meanings of ST.W and LD.W (spec/43_store.md R160, R161, spec/44_load.md R170, R171). -/

namespace Sys2Proof.Machine

/-- `ST.W reg2, disp16 [reg1]` (R160). -/
def execStwDisp16 (reg2 : Reg) (d : BitVec 15) (reg1 : Reg) (s : State) : Result :=
  storeWord s (effAddr s reg1 (disp16Value d)) (s.readReg reg2) 4#32

/-- `ST.W reg3, disp23 [reg1]` (R161): the "lowest word" of `reg3` is the whole register (C13). -/
def execStwDisp23 (reg3 : Reg) (d : BitVec 22) (reg1 : Reg) (s : State) : Result :=
  storeWord s (effAddr s reg1 (disp23Value d)) (s.readReg reg3) 6#32

/-- `LD.W disp16 [reg1], reg2` (R170). -/
def execLdwDisp16 (d : BitVec 15) (reg1 reg2 : Reg) (s : State) : Result :=
  loadWord s (effAddr s reg1 (disp16Value d)) reg2 4#32

/-- `LD.W disp23 [reg1], reg3` (R171). -/
def execLdwDisp23 (d : BitVec 22) (reg1 reg3 : Reg) (s : State) : Result :=
  loadWord s (effAddr s reg1 (disp23Value d)) reg3 6#32

end Sys2Proof.Machine
end

