-- ==== Sys2Proof/Machine/Multiply.lean ====
section
/-! DEFINITION. The meanings of MUL (spec/42_multiply.md R150 to R153). -/

namespace Sys2Proof.Machine

/-- `MUL reg1, reg2, reg3` (R150). -/
def execMulReg (reg1 reg2 reg3 : Reg) (s : State) : Result :=
  multiplyInto (s.readReg reg2) (s.readReg reg1) reg2 reg3 s

/-- `MUL imm9, reg2, reg3` (R151): the immediate is sign-extended (C11). -/
def execMulImm9 (imm9 : BitVec 9) (reg2 reg3 : Reg) (s : State) : Result :=
  multiplyInto (s.readReg reg2) (imm9Value imm9) reg2 reg3 s

end Sys2Proof.Machine
end

