-- ==== Sys2Proof/Machine/Dispatch.lean ====
section
/-! DEFINITION. One arm per instruction. -/

namespace Sys2Proof.Machine

def exec (i : Instr) (s : State) : Host.Outcome State Fault Refusal :=
  match i with
  | .addReg reg1 reg2 => Sys2Proof.Machine.execAddReg reg1 reg2 s
  | .addImm5 imm5 reg2 => Sys2Proof.Machine.execAddImm5 imm5 reg2 s
  | .cmpReg reg1 reg2 => Sys2Proof.Machine.execCmpReg reg1 reg2 s
  | .cmpImm5 imm5 reg2 => Sys2Proof.Machine.execCmpImm5 imm5 reg2 s
  | .movReg reg1 reg2 => Sys2Proof.Machine.execMovReg reg1 reg2 s
  | .movImm5 imm5 reg2 => Sys2Proof.Machine.execMovImm5 imm5 reg2 s
  | .movImm32 imm32 reg1 => Sys2Proof.Machine.execMovImm32 imm32 reg1 s
  | .sub reg1 reg2 => Sys2Proof.Machine.execSub reg1 reg2 s
  | .bv d => Sys2Proof.Machine.execBv d s
  | .bl d => Sys2Proof.Machine.execBl d s
  | .be d => Sys2Proof.Machine.execBe d s
  | .bnh d => Sys2Proof.Machine.execBnh d s
  | .bn d => Sys2Proof.Machine.execBn d s
  | .br d => Sys2Proof.Machine.execBr d s
  | .blt d => Sys2Proof.Machine.execBlt d s
  | .ble d => Sys2Proof.Machine.execBle d s
  | .bnv d => Sys2Proof.Machine.execBnv d s
  | .bnl d => Sys2Proof.Machine.execBnl d s
  | .bne d => Sys2Proof.Machine.execBne d s
  | .bh d => Sys2Proof.Machine.execBh d s
  | .bp d => Sys2Proof.Machine.execBp d s
  | .bsa d => Sys2Proof.Machine.execBsa d s
  | .bge d => Sys2Proof.Machine.execBge d s
  | .bgt d => Sys2Proof.Machine.execBgt d s
  | .jrDisp22 d => Sys2Proof.Machine.execJrDisp22 d s
  | .jrDisp32 d => Sys2Proof.Machine.execJrDisp32 d s
  | .jmpReg reg1 => Sys2Proof.Machine.execJmpReg reg1 s
  | .jmpDisp32 d reg1 => Sys2Proof.Machine.execJmpDisp32 d reg1 s
  | .mulReg reg1 reg2 reg3 => Sys2Proof.Machine.execMulReg reg1 reg2 reg3 s
  | .mulImm9 imm9 reg2 reg3 => Sys2Proof.Machine.execMulImm9 imm9 reg2 reg3 s
  | .stwDisp16 reg2 d reg1 => Sys2Proof.Machine.execStwDisp16 reg2 d reg1 s
  | .stwDisp23 reg3 d reg1 => Sys2Proof.Machine.execStwDisp23 reg3 d reg1 s
  | .ldwDisp16 d reg1 reg2 => Sys2Proof.Machine.execLdwDisp16 d reg1 reg2 s
  | .ldwDisp23 d reg1 reg3 => Sys2Proof.Machine.execLdwDisp23 d reg1 reg3 s

end Sys2Proof.Machine
end

