-- ==== Sys2Proof/Machine/Step.lean ====
section
/-! DEFINITION. One step of the machine, and the placing of one instruction where the next step fetches. -/

namespace Sys2Proof.Machine

/-- One step: the instruction at the pc is fetched, decoded and executed, or the model fault that stands instead is the
outcome (R26, R180, R187). Each meaning advances or sets the pc itself. -/
def step (s : State) : Host.Outcome State Fault Refusal :=
  match nextInstr s with
  | .error f => .fault f
  | .ok i => exec i s

/-- The state with an instruction whose bits are `w`, the bits above `nbits` zero, loaded at the pc: its six bytes in
memory, in `code_region` and in `mem_valid`, and no fault set. It stands for a launch with that program image (log 8). -/
def State.withFetchWord (s : State) (nbits w : Nat) : State :=
  { s.putBytes s.pc (wordBytesOfNat nbits w) with
    fault := none
    params :=
      { s.params with
        memValid := coverBytes s.params.memValid s.pc.toNat 6
        codeRegion := coverBytes s.params.codeRegion s.pc.toNat 6 } }

end Sys2Proof.Machine
end

