-- ==== Sys2Proof/Safety.lean ====
section
/-! DEFINITION. The terms claims are stated in: the invariant of the machine, what a launch must satisfy, the end of a
run, the faulted state, and what two states have in common. -/

namespace Sys2Proof.Machine

/-! ### The invariant -/

/-- Bit 0 of the PC is 0 (R27, R38). -/
abbrev State.PcEven (s : State) : Prop := s.pc.getLsbD 0 = false

/-- The invariant every step keeps: the pc is even (R27) and memory is in its canonical form. -/
abbrev State.Inv (s : State) : Prop := s.PcEven ∧ Memory.wf s.mem = true

/-- What the model requires of a launch (R201 (a), and the canonical form of `INIT_MEM`). -/
abbrev Launch.Wf (l : Launch) : Prop := l.entryPc.getLsbD 0 = false ∧ Memory.wf l.initMem = true

/-! ### Runs -/

/-- The state after a step as the spec's tuple has it: a raise sets the fault component and changes nothing else, and
a state with a fault takes no further step (R38, R180, R186). -/
def State.afterStep (s : State) : State :=
  match s.fault with
  | some _ => s
  | none =>
    match step s with
    | .next t => t
    | .fault f => { s with fault := some f }
    | .refused _ => s

/-- The instruction is a branch to itself that is certain to be taken: `BR 0`, `JR 0` of either width (R202). -/
def isSelfBranch : Instr → Bool
  | .br d => d == 0#8
  | .jrDisp22 d => d == 0#21
  | .jrDisp32 d => d == 0#31
  | _ => false

/-- A run has ended: no fault is set and the instruction at the pc is a certain self-branch (R202, decision D17). -/
def State.ended (s : State) : Bool :=
  match nextInstr s with
  | .ok i => isSelfBranch i
  | .error _ => false

/-- `n` halfwords from the pc up may be fetched: they do not straddle the top of the address space (R55), and every byte
is valid memory of the program image (R46, R53). -/
def State.Fetchable (s : State) (n : Nat) : Prop :=
  s.pc.toNat + 2 * n ≤ 4294967296 ∧ ∀ k, k < 2 * n → s.fetchable (s.pc + BitVec.ofNat 32 k) = true

/-- The bytes lie in memory from `a` up, at rising addresses. -/
def State.HoldsBytes (s : State) (a : Word) (bs : List Byte) : Prop :=
  ∀ k b, bs[k]? = some b → s.readByte (a + BitVec.ofNat 32 k) = b

/-! ### Accesses that reach memory -/

/-- A word access that reaches memory: the address is a multiple of 4 and every byte is valid (R41, R44, R54). -/
def WordOk (s : State) (adr : Word) : Prop := aligned4 adr = true ∧ (wordAddrs adr).all s.memValid = true

/-- A word store that reaches memory: no byte of the word lies in the program image either (R41, R53). -/
def StoreOk (s : State) (adr : Word) : Prop := WordOk s adr ∧ (wordAddrs adr).any s.inCode = false

/-! ### What two states have in common -/

/-- Every general register but those listed holds what it held. -/
def RegsSameBut (ds : List Reg) (s t : State) : Prop := ∀ r, r ∉ ds → t.readReg r = s.readReg r

/-- Every byte of memory reads as it did. -/
def MemSame (s t : State) : Prop := ∀ a, t.readByte a = s.readByte a

/-- Every byte of memory but the four from `adr` up reads as it did. -/
def MemSameButWord (adr : Word) (s t : State) : Prop :=
  ∀ a, a ∉ wordAddrs adr → t.readByte a = s.readByte a

/-- CY, OV, S and Z are those of a result, and SAT is as it was (R8, R34). -/
def FlagsFrom (f : AluResult) (s t : State) : Prop :=
  t.psw.cy = f.cy ∧ t.psw.ov = f.ov ∧ t.psw.s = f.s ∧ t.psw.z = f.z ∧ t.psw.sat = s.psw.sat

/-- The parameters and the fault component are as they were. -/
def RestSame (s t : State) : Prop := t.params = s.params ∧ t.fault = s.fault

/-! ### What an instruction may write -/

/-- The general registers an instruction writes (R22). -/
def destRegs : Instr → List Reg
  | .addReg _ reg2 | .addImm5 _ reg2 | .sub _ reg2 | .movReg _ reg2 | .movImm5 _ reg2 => [reg2]
  | .movImm32 _ reg1 => [reg1]
  | .mulReg _ reg2 reg3 | .mulImm9 _ reg2 reg3 => [reg2, reg3]
  | .ldwDisp16 _ _ reg2 => [reg2]
  | .ldwDisp23 _ _ reg3 => [reg3]
  | _ => []

/-- The instruction is an ADD, SUB or CMP: those that write CY, OV, S and Z (R35). -/
def writesFlags : Instr → Bool
  | .addReg _ _ | .addImm5 _ _ | .sub _ _ | .cmpReg _ _ | .cmpImm5 _ _ => true
  | _ => false

/-- The address an instruction stores a word to, if it stores one: ST.W only (R22, R46). -/
def storeAddr (s : State) : Instr → Option Word
  | .stwDisp16 _ d reg1 => some (effAddr s reg1 (disp16Value d))
  | .stwDisp23 _ d reg1 => some (effAddr s reg1 (disp23Value d))
  | _ => none

/-- The instruction is a Bcond, JR or JMP: those that may set the pc otherwise than by sequencing (R26). -/
def isBranch : Instr → Bool
  | .bv _ | .bl _ | .be _ | .bnh _ | .bn _ | .br _ | .blt _ | .ble _ => true
  | .bnv _ | .bnl _ | .bne _ | .bh _ | .bp _ | .bsa _ | .bge _ | .bgt _ => true
  | .jrDisp22 _ | .jrDisp32 _ | .jmpReg _ | .jmpDisp32 _ _ => true
  | _ => false

/-- The instruction is a JMP: the two whose patterns `JMP_ENCODING_ADMITTED` admits (R80, decision D20). -/
def isJmp : Instr → Bool
  | .jmpReg _ | .jmpDisp32 _ _ => true
  | _ => false

/-! ### Conditional branches -/

/-- A conditional branch with this condition code: its encoding, and the whole next state both ways (R120). The pc is the
address of the branch itself, the sum is modulo 2^32, and nothing but the pc changes. -/
def BranchesWhen (mk : BitVec 8 → Instr) (cccc : BitVec 4) (taken : Psw → Prop) : Prop :=
  ∀ (d : BitVec 8) (s : State),
    (∀ j hw1 hw2, decode j (d.extractLsb' 3 5 ++ 0b1011#4 ++ d.extractLsb' 0 3 ++ cccc) hw1 hw2 = some (mk d)) ∧
    (taken s.psw → exec (mk d) s = .next { s with pc := s.pc + (d ++ 0b0#1 : BitVec 9).signExtend 32 }) ∧
    (¬ taken s.psw → exec (mk d) s = .next { s with pc := s.pc + 2#32 })

/-! ### The opcode map -/

/-- A row of the opcode map: an instruction `insn` of 48 bits, missing halfwords any, is of this row when
`insn & mask = value`, and, where the row says so, its bits 15 to 11 are not 00000 (R80). -/
structure OpcodeRow where
  mask : BitVec 48
  value : BitVec 48
  reg2NotR0 : Bool
  deriving DecidableEq, Repr

/-- The nineteen rows of R80, in its order. -/
def opcodeRows : List OpcodeRow :=
  [⟨0x07E0#48, 0x01C0#48, false⟩, ⟨0x07E0#48, 0x0240#48, false⟩, ⟨0x07E0#48, 0x01E0#48, false⟩,
   ⟨0x07E0#48, 0x0260#48, false⟩, ⟨0x07E0#48, 0x0000#48, true⟩, ⟨0x07E0#48, 0x0200#48, true⟩,
   ⟨0xFFE0#48, 0x0620#48, false⟩, ⟨0x07E0#48, 0x01A0#48, false⟩, ⟨0x0780#48, 0x0580#48, false⟩,
   ⟨0x0001FFC0#48, 0x00000780#48, false⟩] ++
  [⟨0x0001FFFF#48, 0x000002E0#48, false⟩, ⟨0xFFE0#48, 0x0060#48, false⟩, ⟨0x0001FFE0#48, 0x000006E0#48, false⟩,
   ⟨0x07FF07E0#48, 0x022007E0#48, false⟩, ⟨0x07C307E0#48, 0x024007E0#48, false⟩,
   ⟨0x000107E0#48, 0x00010760#48, false⟩, ⟨0x001FFFE0#48, 0x000F0780#48, false⟩,
   ⟨0x000107E0#48, 0x00010720#48, false⟩, ⟨0x001FFFE0#48, 0x00090780#48, false⟩]

/-- The halfwords of an instruction as the integer `insn` (R5). -/
def insnBits (hw0 hw1 hw2 : Half) : BitVec 48 := hw2 ++ hw1 ++ hw0

/-- An instruction's bits match a row (R80). -/
def OpcodeRow.Matches (row : OpcodeRow) (insn : BitVec 48) : Prop :=
  insn &&& row.mask = row.value ∧ (row.reg2NotR0 = true → insn.extractLsb' 11 5 ≠ 0b00000#5)

end Sys2Proof.Machine
end

