-- ==== Sys2Proof/Certificates/Slice0/Obligations.lean ====
section
/-! DEFINITION. The statements for the provers. Each docstring names the rule or the section of spec/ it formalises. A
statement about a register written covers `r0` too: there it says what the spec's decision D2 says, that the write is
discarded and `r0` reads 0 (log 9). -/

open Sys2Proof Sys2Proof.Machine

/-! ### Flags -/

/-- R100: the sum, its carry out of bit 31, signed overflow in both of the rule's readings, sign and zero. -/
def Obligations.AddFlagsCarryOverflowSignZero : Prop :=
  ∀ a b : Word,
    (addFlags a b).r = a + b ∧
    ((addFlags a b).cy = true ↔ 4294967296 ≤ a.toNat + b.toNat) ∧
    ((addFlags a b).ov = true ↔ a.msb = b.msb ∧ (a + b).msb ≠ a.msb) ∧
    ((addFlags a b).ov = true ↔ a.toInt + b.toInt < -2147483648 ∨ 2147483647 < a.toInt + b.toInt) ∧
    (addFlags a b).s = (a + b).msb ∧
    ((addFlags a b).z = true ↔ a + b = 0#32)

/-- R101: the difference, its borrow, signed overflow in both of the rule's readings, sign and zero. -/
def Obligations.SubFlagsBorrowOverflowSignZero : Prop :=
  ∀ a b : Word,
    (subFlags a b).r = a - b ∧
    ((subFlags a b).cy = true ↔ a.toNat < b.toNat) ∧
    ((subFlags a b).ov = true ↔ a.msb ≠ b.msb ∧ (a - b).msb ≠ a.msb) ∧
    ((subFlags a b).ov = true ↔ a.toInt - b.toInt < -2147483648 ∨ 2147483647 < a.toInt - b.toInt) ∧
    (subFlags a b).s = (a - b).msb ∧
    ((subFlags a b).z = true ↔ a - b = 0#32)

/-- Section 6 of 40_arithmetic.md: after a compare, `S xor OV` reads the signed order, CY the unsigned order and Z
equality; after an addition, `S xor OV` reads the sign of the exact sum. -/
def Obligations.SignXorOverflowReadsTrueOrder : Prop :=
  ∀ a b : Word,
    (((subFlags a b).s ^^ (subFlags a b).ov) = true ↔ a.toInt < b.toInt) ∧
    ((subFlags a b).cy = true ↔ a.toNat < b.toNat) ∧
    ((subFlags a b).z = true ↔ a = b) ∧
    (((addFlags a b).s ^^ (addFlags a b).ov) = true ↔ a.toInt + b.toInt < 0)

/-! ### ADD, CMP, MOV, SUB -/

/-- R102: `ADD reg1, reg2`, its encoding, its result, its flags and its frame. -/
def Obligations.AddRegSumFlagsAndFrame : Prop :=
  ∀ (reg1 reg2 : Reg) (s : State),
    (∀ j hw1 hw2, decode j (reg2 ++ 0b001110#6 ++ reg1) hw1 hw2 = some (.addReg reg1 reg2)) ∧
    ∃ t, exec (.addReg reg1 reg2) s = .next t ∧
      t.readReg reg2 = (if reg2 = 0#5 then 0#32 else s.readReg reg2 + s.readReg reg1) ∧
      FlagsFrom (addFlags (s.readReg reg2) (s.readReg reg1)) s t ∧
      t.pc = s.pc + 2#32 ∧ RegsSameBut [reg2] s t ∧ MemSame s t ∧ RestSame s t

/-- R103: `ADD imm5, reg2`, its encoding, its result, its flags and its frame. -/
def Obligations.AddImm5SumFlagsAndFrame : Prop :=
  ∀ (imm5 : BitVec 5) (reg2 : Reg) (s : State),
    (∀ j hw1 hw2, decode j (reg2 ++ 0b010010#6 ++ imm5) hw1 hw2 = some (.addImm5 imm5 reg2)) ∧
    ∃ t, exec (.addImm5 imm5 reg2) s = .next t ∧
      t.readReg reg2 = (if reg2 = 0#5 then 0#32 else s.readReg reg2 + imm5.signExtend 32) ∧
      FlagsFrom (addFlags (s.readReg reg2) (imm5.signExtend 32)) s t ∧
      t.pc = s.pc + 2#32 ∧ RegsSameBut [reg2] s t ∧ MemSame s t ∧ RestSame s t

/-- R104: `CMP reg1, reg2` sets the flags of `x[reg2] - x[reg1]` and writes no register. -/
def Obligations.CmpRegFlagsAndFrame : Prop :=
  ∀ (reg1 reg2 : Reg) (s : State),
    (∀ j hw1 hw2, decode j (reg2 ++ 0b001111#6 ++ reg1) hw1 hw2 = some (.cmpReg reg1 reg2)) ∧
    ∃ t, exec (.cmpReg reg1 reg2) s = .next t ∧
      FlagsFrom (subFlags (s.readReg reg2) (s.readReg reg1)) s t ∧
      t.pc = s.pc + 2#32 ∧ RegsSameBut [] s t ∧ MemSame s t ∧ RestSame s t

/-- R105: `CMP imm5, reg2` sets the flags of `x[reg2] - sext_32(imm5)` and writes no register. -/
def Obligations.CmpImm5FlagsAndFrame : Prop :=
  ∀ (imm5 : BitVec 5) (reg2 : Reg) (s : State),
    (∀ j hw1 hw2, decode j (reg2 ++ 0b010011#6 ++ imm5) hw1 hw2 = some (.cmpImm5 imm5 reg2)) ∧
    ∃ t, exec (.cmpImm5 imm5 reg2) s = .next t ∧
      FlagsFrom (subFlags (s.readReg reg2) (imm5.signExtend 32)) s t ∧
      t.pc = s.pc + 2#32 ∧ RegsSameBut [] s t ∧ MemSame s t ∧ RestSame s t

/-- R106: `MOV reg1, reg2` copies the register, for every `reg2` but `r0`; with `reg2 = r0` the pattern is not this
instruction and is `ReservedInstruction`. -/
def Obligations.MovRegCopiesAndFrame : Prop :=
  ∀ (reg1 reg2 : Reg) (s : State),
    (reg2 ≠ 0#5 →
      (∀ j hw1 hw2, decode j (reg2 ++ 0b000000#6 ++ reg1) hw1 hw2 = some (.movReg reg1 reg2)) ∧
      ∃ t, exec (.movReg reg1 reg2) s = .next t ∧ t.readReg reg2 = s.readReg reg1 ∧
        t.pc = s.pc + 2#32 ∧ t.psw = s.psw ∧ RegsSameBut [reg2] s t ∧ MemSame s t ∧ RestSame s t) ∧
    (reg2 = 0#5 →
      (∀ j hw1 hw2, decode j (reg2 ++ 0b000000#6 ++ reg1) hw1 hw2 = none) ∧
      exec (.movReg reg1 reg2) s = .fault (.reservedInstruction s.pc (reg2 ++ 0b000000#6 ++ reg1)))

/-- R107: `MOV imm5, reg2` writes the sign-extended immediate, for every `reg2` but `r0`; with `reg2 = r0` the pattern is
not this instruction and is `ReservedInstruction`. -/
def Obligations.MovImm5WritesAndFrame : Prop :=
  ∀ (imm5 : BitVec 5) (reg2 : Reg) (s : State),
    (reg2 ≠ 0#5 →
      (∀ j hw1 hw2, decode j (reg2 ++ 0b010000#6 ++ imm5) hw1 hw2 = some (.movImm5 imm5 reg2)) ∧
      ∃ t, exec (.movImm5 imm5 reg2) s = .next t ∧ t.readReg reg2 = imm5.signExtend 32 ∧
        t.pc = s.pc + 2#32 ∧ t.psw = s.psw ∧ RegsSameBut [reg2] s t ∧ MemSame s t ∧ RestSame s t) ∧
    (reg2 = 0#5 →
      (∀ j hw1 hw2, decode j (reg2 ++ 0b010000#6 ++ imm5) hw1 hw2 = none) ∧
      exec (.movImm5 imm5 reg2) s = .fault (.reservedInstruction s.pc (reg2 ++ 0b010000#6 ++ imm5)))

/-- Section 4 of 40_arithmetic.md: `MOV imm32, reg1` writes the immediate as it is. `reg1 = r0` is a valid encoding that
writes nothing, the spec's decision D22 (log 9). -/
def Obligations.MovImm32WritesAndFrame : Prop :=
  ∀ (imm32 : BitVec 32) (reg1 : Reg) (s : State),
    (∀ j, decode j (0b00000110001#11 ++ reg1) (imm32.extractLsb' 0 16) (imm32.extractLsb' 16 16)
      = some (.movImm32 imm32 reg1)) ∧
    ∃ t, exec (.movImm32 imm32 reg1) s = .next t ∧ t.readReg reg1 = (if reg1 = 0#5 then 0#32 else imm32) ∧
      t.pc = s.pc + 6#32 ∧ t.psw = s.psw ∧ RegsSameBut [reg1] s t ∧ MemSame s t ∧ RestSame s t

/-- R109: `SUB reg1, reg2`, its encoding, its result, its flags and its frame. -/
def Obligations.SubDifferenceFlagsAndFrame : Prop :=
  ∀ (reg1 reg2 : Reg) (s : State),
    (∀ j hw1 hw2, decode j (reg2 ++ 0b001101#6 ++ reg1) hw1 hw2 = some (.sub reg1 reg2)) ∧
    ∃ t, exec (.sub reg1 reg2) s = .next t ∧
      t.readReg reg2 = (if reg2 = 0#5 then 0#32 else s.readReg reg2 - s.readReg reg1) ∧
      FlagsFrom (subFlags (s.readReg reg2) (s.readReg reg1)) s t ∧
      t.pc = s.pc + 2#32 ∧ RegsSameBut [reg2] s t ∧ MemSame s t ∧ RestSame s t

/-! ### Bcond, JR, JMP -/

/-- R120: every Bcond branches exactly when `CondHolds` of its code holds of the flags before it. -/
def Obligations.BcondBranchesWhenConditionHolds : Prop :=
  ∀ c : Cond, BranchesWhen (bcond c) c.code (fun p => condHolds c p = true)

/-- R122, R123, R124, R126, R127, R130, R131, R132, R134, R135: the conditions that read one flag or none. -/
def Obligations.OneFlagBranchesFollowTheTable : Prop :=
  BranchesWhen .bv 0b0000#4 (fun p => p.ov = true) ∧
  BranchesWhen .bl 0b0001#4 (fun p => p.cy = true) ∧
  BranchesWhen .be 0b0010#4 (fun p => p.z = true) ∧
  BranchesWhen .bn 0b0100#4 (fun p => p.s = true) ∧
  BranchesWhen .br 0b0101#4 (fun _ => True) ∧
  BranchesWhen .bnv 0b1000#4 (fun p => p.ov = false) ∧
  BranchesWhen .bnl 0b1001#4 (fun p => p.cy = false) ∧
  BranchesWhen .bne 0b1010#4 (fun p => p.z = false) ∧
  BranchesWhen .bp 0b1100#4 (fun p => p.s = false) ∧
  BranchesWhen .bsa 0b1101#4 (fun p => p.sat = true)

/-- R125, R128, R129, R133, R136, R137: the conditions that read two or three flags. -/
def Obligations.CompoundBranchesFollowTheTable : Prop :=
  BranchesWhen .bnh 0b0011#4 (fun p => p.cy = true ∨ p.z = true) ∧
  BranchesWhen .blt 0b0110#4 (fun p => p.s ≠ p.ov) ∧
  BranchesWhen .ble 0b0111#4 (fun p => p.s ≠ p.ov ∨ p.z = true) ∧
  BranchesWhen .bh 0b1011#4 (fun p => p.cy = false ∧ p.z = false) ∧
  BranchesWhen .bge 0b1110#4 (fun p => p.s = p.ov) ∧
  BranchesWhen .bgt 0b1111#4 (fun p => p.s = p.ov ∧ p.z = false)

/-- Section 1 of 41_branch.md: codes that differ only in bit 3 are each other's negation, but for always and SAT = 1. -/
def Obligations.ConditionCodesPairAsNegations : Prop :=
  ∀ (c c' : Cond) (p : Psw), c'.code = c.code ^^^ 0b1000#4 → c ≠ .r → c ≠ .sa → condHolds c' p = !condHolds c p

/-- Section 6 of 40_arithmetic.md: after `CMP reg1, reg2`, the ten comparing branches go by the relation of `reg2` to
`reg1`, signed, unsigned or equal, overflow or not. -/
def Obligations.CompareThenBranchGoesByTheRelation : Prop :=
  ∀ (reg1 reg2 : Reg) (d : BitVec 8) (s : State),
    ∃ t, exec (.cmpReg reg1 reg2) s = .next t ∧
      ∀ (i : Instr) (holds : Prop),
        (i, holds) ∈
          [(.blt d, (s.readReg reg2).toInt < (s.readReg reg1).toInt),
           (.ble d, (s.readReg reg2).toInt ≤ (s.readReg reg1).toInt),
           (.bge d, (s.readReg reg1).toInt ≤ (s.readReg reg2).toInt),
           (.bgt d, (s.readReg reg1).toInt < (s.readReg reg2).toInt),
           (.bl d, (s.readReg reg2).toNat < (s.readReg reg1).toNat),
           (.bnh d, (s.readReg reg2).toNat ≤ (s.readReg reg1).toNat),
           (.bnl d, (s.readReg reg1).toNat ≤ (s.readReg reg2).toNat),
           (.bh d, (s.readReg reg1).toNat < (s.readReg reg2).toNat),
           (.be d, s.readReg reg2 = s.readReg reg1),
           (.bne d, s.readReg reg2 ≠ s.readReg reg1)] →
        (holds → exec i t = .next { t with pc := s.pc + 2#32 + disp9Value d }) ∧
        (¬ holds → exec i t = .next { t with pc := s.pc + 4#32 })

/-- R139: `JR disp22` adds the sign-extended displacement to its own address and changes nothing else. -/
def Obligations.JrDisp22JumpsRelative : Prop :=
  ∀ (d : BitVec 21) (s : State),
    (∀ j hw2, decode j (0b0000011110#10 ++ d.extractLsb' 15 6) (d.extractLsb' 0 15 ++ 0b0#1) hw2
      = some (.jrDisp22 d)) ∧
    exec (.jrDisp22 d) s = .next { s with pc := s.pc + (d ++ 0b0#1 : BitVec 22).signExtend 32 }

/-- R140: `JR disp32` adds the displacement as it is to its own address and changes nothing else. -/
def Obligations.JrDisp32JumpsRelative : Prop :=
  ∀ (d : BitVec 31) (s : State),
    (∀ j, decode j 0b0000001011100000#16 (d.extractLsb' 0 15 ++ 0b0#1) (d.extractLsb' 15 16)
      = some (.jrDisp32 d)) ∧
    exec (.jrDisp32 d) s = .next { s with pc := s.pc + (d ++ 0b0#1) }

/-- Section 3 of 41_branch.md: `JMP [reg1]` goes to the register's value with bit 0 cleared and changes nothing else. Its
pattern is general knowledge that the spec admits by decision D20 (log 13). -/
def Obligations.JmpRegJumpsToRegister : Prop :=
  ∀ (reg1 : Reg) (s : State),
    (∀ hw1 hw2, decode true (0b00000000011#11 ++ reg1) hw1 hw2 = some (.jmpReg reg1)) ∧
    (∀ hw1 hw2, decode false (0b00000000011#11 ++ reg1) hw1 hw2 = none) ∧
    exec (.jmpReg reg1) s = .next { s with pc := (s.readReg reg1).extractLsb' 1 31 ++ 0b0#1 }

/-- Section 3 of 41_branch.md: `JMP disp32 [reg1]` goes to the sum with bit 0 cleared and changes nothing else. Its
pattern is general knowledge that the spec admits by decision D20 (log 13). -/
def Obligations.JmpDisp32JumpsToSum : Prop :=
  ∀ (d : BitVec 31) (reg1 : Reg) (s : State),
    (decode true (0b00000110111#11 ++ reg1) (d.extractLsb' 0 15 ++ 0b0#1) (d.extractLsb' 15 16)
      = some (.jmpDisp32 d reg1)) ∧
    (decode false (0b00000110111#11 ++ reg1) (d.extractLsb' 0 15 ++ 0b0#1) (d.extractLsb' 15 16) = none) ∧
    exec (.jmpDisp32 d reg1) s
      = .next { s with pc := (s.readReg reg1 + (d ++ 0b0#1)).extractLsb' 1 31 ++ 0b0#1 }

/-! ### MUL -/

/-- Section of 42_multiply.md on form (1): the exact signed product, its high word to `reg3`, its low word to `reg2`
unless `reg3` is the same register. What `r0` as a destination does is the spec's decision D19, with D2 (logs 14 and 9). -/
def Obligations.MulRegExactSignedProduct : Prop :=
  ∀ (reg1 reg2 reg3 : Reg) (s : State),
    (∀ j hw2, decode j (reg2 ++ 0b111111#6 ++ reg1) (reg3 ++ 0b01000100000#11) hw2
      = some (.mulReg reg1 reg2 reg3)) ∧
    ∃ t hi lo, exec (.mulReg reg1 reg2 reg3) s = .next t ∧
      (hi ++ lo : BitVec (32 + 32)).toInt = (s.readReg reg2).toInt * (s.readReg reg1).toInt ∧
      t.readReg reg3 = (if reg3 = 0#5 then 0#32 else hi) ∧
      t.readReg reg2 = (if reg2 = 0#5 then 0#32 else if reg2 = reg3 then hi else lo) ∧
      t.pc = s.pc + 4#32 ∧ t.psw = s.psw ∧ RegsSameBut [reg2, reg3] s t ∧ MemSame s t ∧ RestSame s t

/-- 42_multiply.md, form (2): the exact signed product with the sign-extended immediate, its words to the registers as in
form (1). What `r0` as a destination does is the spec's decision D19, with D2 (logs 14 and 9). -/
def Obligations.MulImm9ExactSignedProduct : Prop :=
  ∀ (imm9 : BitVec 9) (reg2 reg3 : Reg) (s : State),
    (∀ j hw2, decode j (reg2 ++ 0b111111#6 ++ imm9.extractLsb' 0 5)
      (reg3 ++ 0b01001#5 ++ imm9.extractLsb' 5 4 ++ 0b00#2) hw2 = some (.mulImm9 imm9 reg2 reg3)) ∧
    ∃ t hi lo, exec (.mulImm9 imm9 reg2 reg3) s = .next t ∧
      (hi ++ lo : BitVec (32 + 32)).toInt = (s.readReg reg2).toInt * imm9.toInt ∧
      t.readReg reg3 = (if reg3 = 0#5 then 0#32 else hi) ∧
      t.readReg reg2 = (if reg2 = 0#5 then 0#32 else if reg2 = reg3 then hi else lo) ∧
      t.pc = s.pc + 4#32 ∧ t.psw = s.psw ∧ RegsSameBut [reg2, reg3] s t ∧ MemSame s t ∧ RestSame s t

/-- R152: with one register as both destinations, it keeps only the higher 32 bits of the product, in both forms
(with `r0` the product is 0 and so is what `r0` reads, by the spec's decisions D19 and D2, logs 14 and 9). -/
def Obligations.MulSameDestinationKeepsHighWord : Prop :=
  ∀ (reg1 reg2 : Reg) (imm9 : BitVec 9) (s : State),
    (∃ t, exec (.mulReg reg1 reg2 reg2) s = .next t ∧
      (t.readReg reg2).toInt = ((s.readReg reg2).toInt * (s.readReg reg1).toInt) / 4294967296) ∧
    (∃ t, exec (.mulImm9 imm9 reg2 reg2) s = .next t ∧
      (t.readReg reg2).toInt = ((s.readReg reg2).toInt * imm9.toInt) / 4294967296)

/-- The law of 42_multiply.md: the low word is that of an unsigned multiply of the same bit patterns. With
`reg2 = r0` both sides are 0, by the spec's decisions D19 and D2 (logs 14 and 9). -/
def Obligations.MulLowWordIsSignFree : Prop :=
  ∀ (reg1 reg2 reg3 : Reg) (s : State), reg2 ≠ reg3 →
    ∃ t, exec (.mulReg reg1 reg2 reg3) s = .next t ∧
      (t.readReg reg2).toNat = ((s.readReg reg2).toNat * (s.readReg reg1).toNat) % 4294967296

/-! ### Operand values -/

/-- Section 3 of 30_encoding.md: each operand value as an integer, and its range; a displacement is twice what is encoded,
since its bit 0 is 0 (for `disp16` and `disp23` the spec's decision D18, log 12). -/
def Obligations.OperandValuesAndRanges : Prop :=
  (∀ i : BitVec 5, (imm5Value i).toInt = i.toInt ∧ -16 ≤ i.toInt ∧ i.toInt ≤ 15) ∧
  (∀ i : BitVec 9, (imm9Value i).toInt = i.toInt ∧ -256 ≤ i.toInt ∧ i.toInt ≤ 255) ∧
  (∀ d : BitVec 8, (disp9Value d).toInt = 2 * d.toInt ∧ -256 ≤ 2 * d.toInt ∧ 2 * d.toInt ≤ 254) ∧
  (∀ d : BitVec 15, (disp16Value d).toInt = 2 * d.toInt ∧ -32768 ≤ 2 * d.toInt ∧ 2 * d.toInt ≤ 32766) ∧
  (∀ d : BitVec 21, (disp22Value d).toInt = 2 * d.toInt ∧ -2097152 ≤ 2 * d.toInt ∧ 2 * d.toInt ≤ 2097150) ∧
  (∀ d : BitVec 22, (disp23Value d).toInt = 2 * d.toInt ∧ -4194304 ≤ 2 * d.toInt ∧ 2 * d.toInt ≤ 4194302) ∧
  (∀ d : BitVec 31, (disp32Value d).toNat = 2 * d.toNat)

/-! ### LD.W and ST.W -/

/-- 44_load.md, form (1): `LD.W disp16 [reg1], reg2`: the three outcomes in the order of the checks, the loaded word
little-endian. The byte order is the spec's decision D5 (log 15); misalignment faults by D6 and displacement bit 0 is 0 by
D18 (log 12); a valid address is plain storage by D16 (log 16); `r0` is D2 (log 9). -/
def Obligations.LdwDisp16LoadsOrFaults : Prop :=
  ∀ (d : BitVec 15) (reg1 reg2 : Reg) (s : State) (adr : Word),
    adr = effAddr s reg1 ((d ++ 0b0#1 : BitVec 16).signExtend 32) →
    (∀ j hw2, decode j (reg2 ++ 0b111001#6 ++ reg1) (d ++ 0b1#1) hw2 = some (.ldwDisp16 d reg1 reg2)) ∧
    adr = s.readReg reg1 + (d ++ 0b0#1 : BitVec 16).signExtend 32 ∧
    (adr.toNat % 4 ≠ 0 → exec (.ldwDisp16 d reg1 reg2) s = .fault (.misalignedAccess adr)) ∧
    (adr.toNat % 4 = 0 → (∃ a ∈ wordAddrs adr, s.memValid a = false) →
      exec (.ldwDisp16 d reg1 reg2) s = .fault (.accessFault adr)) ∧
    (adr.toNat % 4 = 0 → (∀ a ∈ wordAddrs adr, s.memValid a = true) →
      ∃ t, exec (.ldwDisp16 d reg1 reg2) s = .next t ∧
        t.readReg reg2 = (if reg2 = 0#5 then 0#32 else
          s.readByte (adr + 3#32) ++ s.readByte (adr + 2#32) ++ s.readByte (adr + 1#32) ++ s.readByte adr) ∧
        t.pc = s.pc + 4#32 ∧ t.psw = s.psw ∧ RegsSameBut [reg2] s t ∧ MemSame s t ∧ RestSame s t)

/-- 44_load.md, form (2): `LD.W disp23 [reg1], reg3`: the three outcomes in the order of the checks, the loaded word
little-endian. The byte order is the spec's decision D5 (log 15); misalignment faults by D6 and displacement bit 0 is 0 by
D18 (log 12); a valid address is plain storage by D16 (log 16); `r0` is D2 (log 9). -/
def Obligations.LdwDisp23LoadsOrFaults : Prop :=
  ∀ (d : BitVec 22) (reg1 reg3 : Reg) (s : State) (adr : Word),
    adr = effAddr s reg1 ((d ++ 0b0#1 : BitVec 23).signExtend 32) →
    (∀ j, decode j (0b00000111100#11 ++ reg1) (reg3 ++ d.extractLsb' 0 6 ++ 0b01001#5) (d.extractLsb' 6 16)
      = some (.ldwDisp23 d reg1 reg3)) ∧
    adr = s.readReg reg1 + (d ++ 0b0#1 : BitVec 23).signExtend 32 ∧
    (adr.toNat % 4 ≠ 0 → exec (.ldwDisp23 d reg1 reg3) s = .fault (.misalignedAccess adr)) ∧
    (adr.toNat % 4 = 0 → (∃ a ∈ wordAddrs adr, s.memValid a = false) →
      exec (.ldwDisp23 d reg1 reg3) s = .fault (.accessFault adr)) ∧
    (adr.toNat % 4 = 0 → (∀ a ∈ wordAddrs adr, s.memValid a = true) →
      ∃ t, exec (.ldwDisp23 d reg1 reg3) s = .next t ∧
        t.readReg reg3 = (if reg3 = 0#5 then 0#32 else
          s.readByte (adr + 3#32) ++ s.readByte (adr + 2#32) ++ s.readByte (adr + 1#32) ++ s.readByte adr) ∧
        t.pc = s.pc + 6#32 ∧ t.psw = s.psw ∧ RegsSameBut [reg3] s t ∧ MemSame s t ∧ RestSame s t)

/-- 43_store.md, form (1): `ST.W reg2, disp16 [reg1]`: the four outcomes in the order of the checks, the stored word
little-endian, and every byte outside it as before. The byte order is the spec's decision D5 (log 15); misalignment faults
by D6 and displacement bit 0 is 0 by D18 (log 12); a store into the program faults by D15 (log 12); a valid address is
plain storage by D16 (log 16). -/
def Obligations.StwDisp16StoresOrFaults : Prop :=
  ∀ (reg2 : Reg) (d : BitVec 15) (reg1 : Reg) (s : State) (adr : Word),
    adr = effAddr s reg1 ((d ++ 0b0#1 : BitVec 16).signExtend 32) →
    (∀ j hw2, decode j (reg2 ++ 0b111011#6 ++ reg1) (d ++ 0b1#1) hw2 = some (.stwDisp16 reg2 d reg1)) ∧
    adr = s.readReg reg1 + (d ++ 0b0#1 : BitVec 16).signExtend 32 ∧
    (adr.toNat % 4 ≠ 0 → exec (.stwDisp16 reg2 d reg1) s = .fault (.misalignedAccess adr)) ∧
    (adr.toNat % 4 = 0 → (∃ a ∈ wordAddrs adr, s.memValid a = false) →
      exec (.stwDisp16 reg2 d reg1) s = .fault (.accessFault adr)) ∧
    (adr.toNat % 4 = 0 → (∀ a ∈ wordAddrs adr, s.memValid a = true) → (∃ a ∈ wordAddrs adr, s.inCode a = true) →
      exec (.stwDisp16 reg2 d reg1) s = .fault (.storeToCode adr)) ∧
    (adr.toNat % 4 = 0 → (∀ a ∈ wordAddrs adr, s.memValid a = true) → (∀ a ∈ wordAddrs adr, s.inCode a = false) →
      ∃ t, exec (.stwDisp16 reg2 d reg1) s = .next t ∧
        t.readByte adr = (s.readReg reg2).extractLsb' 0 8 ∧
        t.readByte (adr + 1#32) = (s.readReg reg2).extractLsb' 8 8 ∧
        t.readByte (adr + 2#32) = (s.readReg reg2).extractLsb' 16 8 ∧
        t.readByte (adr + 3#32) = (s.readReg reg2).extractLsb' 24 8 ∧
        t.pc = s.pc + 4#32 ∧ t.psw = s.psw ∧ RegsSameBut [] s t ∧ MemSameButWord adr s t ∧ RestSame s t)

/-- 43_store.md, form (2): `ST.W reg3, disp23 [reg1]`: the four outcomes in the order of the checks, the stored word
little-endian, and every byte outside it as before. The byte order is the spec's decision D5 (log 15); misalignment faults
by D6 and displacement bit 0 is 0 by D18 (log 12); a store into the program faults by D15 (log 12); a valid address is
plain storage by D16 (log 16). -/
def Obligations.StwDisp23StoresOrFaults : Prop :=
  ∀ (reg3 : Reg) (d : BitVec 22) (reg1 : Reg) (s : State) (adr : Word),
    adr = effAddr s reg1 ((d ++ 0b0#1 : BitVec 23).signExtend 32) →
    (∀ j, decode j (0b00000111100#11 ++ reg1) (reg3 ++ d.extractLsb' 0 6 ++ 0b01111#5) (d.extractLsb' 6 16)
      = some (.stwDisp23 reg3 d reg1)) ∧
    adr = s.readReg reg1 + (d ++ 0b0#1 : BitVec 23).signExtend 32 ∧
    (adr.toNat % 4 ≠ 0 → exec (.stwDisp23 reg3 d reg1) s = .fault (.misalignedAccess adr)) ∧
    (adr.toNat % 4 = 0 → (∃ a ∈ wordAddrs adr, s.memValid a = false) →
      exec (.stwDisp23 reg3 d reg1) s = .fault (.accessFault adr)) ∧
    (adr.toNat % 4 = 0 → (∀ a ∈ wordAddrs adr, s.memValid a = true) → (∃ a ∈ wordAddrs adr, s.inCode a = true) →
      exec (.stwDisp23 reg3 d reg1) s = .fault (.storeToCode adr)) ∧
    (adr.toNat % 4 = 0 → (∀ a ∈ wordAddrs adr, s.memValid a = true) → (∀ a ∈ wordAddrs adr, s.inCode a = false) →
      ∃ t, exec (.stwDisp23 reg3 d reg1) s = .next t ∧
        t.readByte adr = (s.readReg reg3).extractLsb' 0 8 ∧
        t.readByte (adr + 1#32) = (s.readReg reg3).extractLsb' 8 8 ∧
        t.readByte (adr + 2#32) = (s.readReg reg3).extractLsb' 16 8 ∧
        t.readByte (adr + 3#32) = (s.readReg reg3).extractLsb' 24 8 ∧
        t.pc = s.pc + 6#32 ∧ t.psw = s.psw ∧ RegsSameBut [] s t ∧ MemSameButWord adr s t ∧ RestSame s t)

/-- Section 7 of 20_memory.md: a word load right after a word store to its address reads all of the stored word, in all
four pairs of a storing and a loading form. The base of the load need not be the base of the store; only the addresses
agree (decision D14, log 16; `r0` by D2, log 9). The byte order cancels: the word is put together as it was taken apart. -/
def Obligations.LoadSeesTheLatestStore : Prop :=
  ∀ (src reg1 base q : Reg) (d16 d16' : BitVec 15) (d23 d23' : BitVec 22) (s t : State) (store load : Instr) (adr : Word),
    (store, adr) ∈
      [(.stwDisp16 src d16 reg1, effAddr s reg1 (disp16Value d16)),
       (.stwDisp23 src d23 reg1, effAddr s reg1 (disp23Value d23))] →
    exec store s = .next t →
    (load, adr) ∈
      [(.ldwDisp16 d16' base q, effAddr t base (disp16Value d16')),
       (.ldwDisp23 d23' base q, effAddr t base (disp23Value d23'))] →
    ∃ u, exec load t = .next u ∧
      u.readReg q = (if q = 0#5 then 0#32 else s.readReg src)

/-! ### Encoding and decoding -/

/-- Section 4 of 30_encoding.md: the bytes of every well-formed instruction decode to it, whatever follows them, with
every operand at every value; JMP where its patterns are admitted (decision D20, log 13). A halfword's bytes are
little-endian, decision D5 (log 15). -/
def Obligations.DecodeOfEncodeIsTheInstruction : Prop :=
  ∀ (j : Bool) (i : Instr) (rest : List Byte), i.wf = true → (isJmp i = true → j = true) →
    decodeBytes j (encodeBytes i ++ rest) = .insn i rest

/-- Sections 4 and 5 of 30_encoding.md: whatever decodes is a well-formed instruction's own encoding, so no fixed bit is
ignored and every word has one meaning. JMP decodes only where its patterns are admitted (general knowledge, decision
D20, log 13), and a halfword's bytes are little-endian, decision D5 (log 15). -/
def Obligations.OnlyEncodingsDecode : Prop :=
  ∀ (j : Bool) (bs rest : List Byte) (i : Instr), decodeBytes j bs = .insn i rest →
    i.wf = true ∧ (isJmp i = true → j = true) ∧ bs = encodeBytes i ++ rest

/-- Section 4 of 30_encoding.md: a pattern is an instruction exactly when it matches a row of the opcode map. The two JMP
rows are admitted by decision D20 (log 13). -/
def Obligations.DecodesExactlyTheOpcodeMap : Prop :=
  ∀ hw0 hw1 hw2 : Half,
    (decode true hw0 hw1 hw2).isSome = true ↔ ∃ row ∈ opcodeRows, row.Matches (insnBits hw0 hw1 hw2)

/-- Section 4 of 30_encoding.md: no pattern matches two rows of the opcode map. -/
def Obligations.OpcodeRowsAreDisjoint : Prop :=
  opcodeRows.Pairwise (fun a b => ∀ insn : BitVec 48, ¬ (a.Matches insn ∧ b.Matches insn))

/-- Section 1 of 30_encoding.md: the length rule reads the length of every instruction from `hw0`, and from `hw1` where
`hw0` leaves it open. -/
def Obligations.LengthRuleGivesTheLength : Prop :=
  ∀ (j : Bool) (hw0 hw1 hw2 : Half) (i : Instr), decode j hw0 hw1 hw2 = some i →
    i.len = 2 + (if needHw1 hw0 then 2 else 0) + (if needHw2 hw0 hw1 then 2 else 0)

/-- Decision D20 (log 13): with `JMP_ENCODING_ADMITTED` false the decoder refuses the two JMP patterns and nothing else. -/
def Obligations.JmpParameterRefusesOnlyJmp : Prop :=
  ∀ (hw0 hw1 hw2 : Half) (i : Instr),
    decode false hw0 hw1 hw2 = some i ↔ decode true hw0 hw1 hw2 = some i ∧ isJmp i = false

/-- Sections 2.1 and 1.5 of 95_test_vectors.md: a word of every family decodes to the instruction it stands for; `007F` as
`JMP [r31]` is general knowledge that the spec admits by decision D20 (log 13). -/
def Obligations.SampleWordsDecode : Prop :=
  decodeTableWord 16 0x31C5 = some (.addReg 5#5 6#5) ∧
  decodeTableWord 16 0x525F = some (.addImm5 31#5 10#5) ∧
  decodeTableWord 16 0x39E6 = some (.cmpReg 6#5 7#5) ∧
  decodeTableWord 16 0x3806 = some (.movReg 6#5 7#5) ∧
  decodeTableWord 48 0x123456780627 = some (.movImm32 0x12345678#32 7#5) ∧
  decodeTableWord 16 0x11A1 = some (.sub 1#5 2#5) ∧
  decodeTableWord 16 0xFDEA = some (.bne 0xFE#8) ∧
  decodeTableWord 32 0x23440781 = some (.jrDisp22 0x091A2#21) ∧
  decodeTableWord 16 0x007F = some (.jmpReg 31#5) ∧
  decodeTableWord 32 0x4A2047E7 = some (.mulReg 7#5 8#5 9#5) ∧
  decodeTableWord 48 0x246845AF0786 = some (.stwDisp23 8#5 0x91A2D#22 6#5) ∧
  decodeTableWord 32 0x12354726 = some (.ldwDisp16 0x091A#15 6#5 8#5)

/-- Section 2.2 of 95_test_vectors.md: reserved encodings, `MOV` to `r0` and wrong fixed bits among them
(decisions D9 and D23, log 10). -/
def Obligations.ReservedSampleWordsAreRefused : Prop :=
  decodeTableWord 16 0x0000 = none ∧
  decodeTableWord 16 0x021F = none ∧
  decodeTableWord 16 0x0865 = none ∧
  decodeTableWord 48 0x02E1 = none ∧
  decodeTableWord 48 0x000102E0 = none ∧
  decodeTableWord 48 0x0E27 = none ∧
  decodeTableWord 32 0x4A2147E7 = none ∧
  decodeTableWord 32 0x4A7D47FD = none ∧
  decodeTableWord 32 0x00044726 = none ∧
  decodeTableWord 48 0x020050030786 = none ∧
  decodeTableWord 48 0x0200500907A6 = none

/-! ### Fetching and stepping -/

/-- Section 3 of 20_memory.md: when no fault is set and the halfwords fetched at the pc decode to an instruction, a step
is `exec` of it at that state, with nothing added: each meaning moves the pc itself. -/
def Obligations.StepRunsTheFetchedInstruction : Prop :=
  ∀ (s : State) (hw0 hw1 hw2 : Half) (i : Instr),
    s.fault = none → fetch s = .ok (hw0, hw1, hw2) → decode s.params.jmpEncodingAdmitted hw0 hw1 hw2 = some i →
    step s = exec i s

/-- Section 3 of 20_memory.md: when the bytes of a well-formed instruction lie at the pc and may be fetched, the step runs
exactly it, at every even or odd offset, next to the top of the address space, and whatever follows it (a byte outside
`code_region` may not be fetched, log 7; JMP where its patterns are admitted, decision D20, log 13; a halfword's bytes are
little-endian, decision D5, log 15). -/
def Obligations.StepRunsTheInstructionWhoseBytesLieAtPc : Prop :=
  ∀ (s : State) (i : Instr),
    s.fault = none → i.wf = true → (isJmp i = true → s.params.jmpEncodingAdmitted = true) →
    s.Fetchable (i.len / 2) → s.HoldsBytes s.pc (encodeBytes i) →
    step s = exec i s

/-- Sections 7 and 8 of 20_memory.md and 1 of 60_exceptions.md: the needed halfwords are checked in order, and the fault
names the first that may not be fetched, or the pc where the instruction wraps past the top (decisions D4, D15, D16; a
byte outside `code_region` may not be fetched, log 7; a halfword's bytes are little-endian, decision D5, log 15). -/
def Obligations.FetchFaultNamesTheHalfword : Prop :=
  ∀ s : State, s.fault = none →
    ((s.fetchable s.pc && s.fetchable (s.pc + 1#32)) = false → step s = .fault (.fetchFault s.pc)) ∧
    (∀ hw0, (s.fetchable s.pc && s.fetchable (s.pc + 1#32)) = true →
      hw0 = halfOfBytes (s.readByte s.pc) (s.readByte (s.pc + 1#32)) → needHw1 hw0 = true →
      (4294967294 ≤ s.pc.toNat → step s = .fault (.fetchFault s.pc)) ∧
      (s.pc.toNat < 4294967294 → (s.fetchable (s.pc + 2#32) && s.fetchable (s.pc + 3#32)) = false →
        step s = .fault (.fetchFault (s.pc + 2#32))) ∧
      (∀ hw1, s.pc.toNat < 4294967294 → (s.fetchable (s.pc + 2#32) && s.fetchable (s.pc + 3#32)) = true →
        hw1 = halfOfBytes (s.readByte (s.pc + 2#32)) (s.readByte (s.pc + 3#32)) → needHw2 hw0 hw1 = true →
        (4294967292 ≤ s.pc.toNat → step s = .fault (.fetchFault s.pc)) ∧
        (s.pc.toNat < 4294967292 → (s.fetchable (s.pc + 4#32) && s.fetchable (s.pc + 5#32)) = false →
          step s = .fault (.fetchFault (s.pc + 4#32)))))

/-- Section 5 of 30_encoding.md and section 1 of 60_exceptions.md: halfwords that match no row are `ReservedInstruction`
of the pc and the first of them (decision D9, log 10). -/
def Obligations.ReservedEncodingFaults : Prop :=
  ∀ (s : State) (hw0 hw1 hw2 : Half),
    s.fault = none → fetch s = .ok (hw0, hw1, hw2) → decode s.params.jmpEncodingAdmitted hw0 hw1 hw2 = none →
    step s = .fault (.reservedInstruction s.pc hw0)

/-- Section 1 of 60_exceptions.md: a fault changes nothing but the fault component, which is never cleared, and no step is
taken after it (decision D10, log 11). -/
def Obligations.FaultIsPreciseAndTerminal : Prop :=
  ∀ (s : State) (f : Fault),
    (s.fault = none → step s = .fault f → s.afterStep = { s with fault := some f }) ∧
    (s.fault = some f → step s = .fault f ∧ s.afterStep = s)

/-- Section 2 of 93_implementation_defined.md: the model is never stuck, and no instruction is refused. -/
def Obligations.StepNeverRefuses : Prop :=
  ∀ (s : State) (r : Refusal), step s ≠ .refused r

/-- Section 1 of 60_exceptions.md: of the well-formed instructions only LD.W and ST.W have a fault of their own, of the
address they access (the spec's decisions D6, log 12, D16, log 16, and D15, log 12); no other one faults in any state. -/
def Obligations.OnlyLoadsAndStoresFault : Prop :=
  ∀ (i : Instr) (s : State) (f : Fault), i.wf = true → exec i s = .fault f →
    (∃ d reg1 r, i = .ldwDisp16 d reg1 r ∧ f ∈ [.misalignedAccess (effAddr s reg1 (disp16Value d)),
      .accessFault (effAddr s reg1 (disp16Value d))]) ∨
    (∃ d reg1 r, i = .ldwDisp23 d reg1 r ∧ f ∈ [.misalignedAccess (effAddr s reg1 (disp23Value d)),
      .accessFault (effAddr s reg1 (disp23Value d))]) ∨
    (∃ r d reg1, i = .stwDisp16 r d reg1 ∧ f ∈ [.misalignedAccess (effAddr s reg1 (disp16Value d)),
      .accessFault (effAddr s reg1 (disp16Value d)), .storeToCode (effAddr s reg1 (disp16Value d))]) ∨
    (∃ r d reg1, i = .stwDisp23 r d reg1 ∧ f ∈ [.misalignedAccess (effAddr s reg1 (disp23Value d)),
      .accessFault (effAddr s reg1 (disp23Value d)), .storeToCode (effAddr s reg1 (disp23Value d))])

/-! ### The whole machine -/

/-- Section 1 of 10_state.md: `r0` reads 0 and a write to it is discarded (decision D2, log 9). -/
def Obligations.RegisterZeroIsHardwired : Prop :=
  ∀ (s : State) (v : Word), s.readReg 0#5 = 0#32 ∧ s.writeReg 0#5 v = s

/-- Section 1 of 10_state.md: an instruction writes no general register but its destinations. -/
def Obligations.OnlyDestinationRegistersChange : Prop :=
  ∀ (i : Instr) (s t : State), exec i s = .next t → RegsSameBut (destRegs i) s t

/-- Sections 1, 2 and 5 of 20_memory.md: an instruction that is no ST.W leaves every byte of memory, and an ST.W leaves
every byte outside the word it stores. That the stored word is aligned, lies in valid memory and outside the program image
(sections 4, 8 and 7) is the spec's decisions D6 (log 12), D16 (log 16) and D15 (log 12). -/
def Obligations.OnlyStoresChangeMemory : Prop :=
  ∀ (i : Instr) (s t : State), exec i s = .next t →
    (storeAddr s i = none → MemSame s t) ∧
    (∀ adr, storeAddr s i = some adr → MemSameButWord adr s t ∧ StoreOk s adr)

/-- R35: only ADD, SUB and CMP write flags. -/
def Obligations.OnlyAddSubCmpWriteFlags : Prop :=
  ∀ (i : Instr) (s t : State), exec i s = .next t → writesFlags i = false → t.psw = s.psw

/-- R34: no instruction writes SAT, so it keeps its launch value for the whole run, and BSA alone reads it. -/
def Obligations.SatIsNeverWrittenAndReadByBsaAlone : Prop :=
  (∀ (k : Nat) (s t : State), Host.Core.run Sys2Proof.core k s = .next t → t.psw.sat = s.psw.sat) ∧
  (∀ (c : Cond) (p : Psw) (b : Bool), c ≠ .sa → condHolds c { p with sat := b } = condHolds c p) ∧
  (∀ p : Psw, condHolds .sa p = p.sat)

/-- Section 2 of 10_state.md: an instruction that is no branch ends with the pc advanced by its length. -/
def Obligations.NonBranchesAdvanceByTheirLength : Prop :=
  ∀ (i : Instr) (s t : State), exec i s = .next t → isBranch i = false → t.pc = s.pc + BitVec.ofNat 32 i.len

/-- The template of 41_branch.md: a branch completes in every state and changes nothing but the pc. -/
def Obligations.BranchesChangeOnlyThePc : Prop :=
  ∀ (i : Instr) (s : State), isBranch i = true → ∃ pc, exec i s = .next { s with pc := pc }

/-- Section 3 of 70_reset_and_hazards.md: where a run has ended, the step is a branch to itself that changes no state
(decision D17). -/
def Obligations.EndedRunStaysWhereItIs : Prop :=
  ∀ s : State, s.ended = true → step s = .next s

/-- Section 2 of 10_state.md: a launch with an even entry pc and canonical memory meets the invariant, with no fault set
and everything else as the launch gives it (decision D13). -/
def Obligations.LaunchMeetsTheInvariant : Prop :=
  ∀ l : Launch, l.Wf →
    (State.launch l).Inv ∧ (State.launch l).fault = none ∧ (State.launch l).pc = l.entryPc ∧
    (State.launch l).x = l.initGr ∧ (State.launch l).psw = l.initFlags ∧ (State.launch l).mem = l.initMem ∧
    (State.launch l).params = l.params

/-- `State.reset` meets the invariant, with the values the model chose for it: registers and flags 0 (log 2), the pc
0x1000 (log 1), memory listing nothing (log 3), all of it valid (log 5), no program loaded (log 6). -/
def Obligations.ResetValuesMeetTheInvariant : Prop :=
  State.reset.Inv ∧ State.reset.fault = none ∧ State.reset.pc = 0x00001000#32 ∧
  (∀ r : Reg, State.reset.readReg r = 0#32) ∧
  State.reset.psw = { cy := false, ov := false, s := false, z := false, sat := false } ∧
  (∀ a : Word, State.reset.readByte a = 0x00#8 ∧ State.reset.memValid a = true ∧ State.reset.inCode a = false)

/-- Section 2 of 10_state.md: every step keeps bit 0 of the pc at 0 and memory in its canonical form. -/
def Obligations.StepKeepsTheInvariant : Prop :=
  ∀ s t : State, s.Inv → step s = .next t → t.Inv

/-- Section 7 of 20_memory.md: along every run, from every state, the program image is immutable and the parameters and
the invariant stay, so every fetch reads the image the run began with (decision D15, log 7; a halfword's bytes are
little-endian, decision D5, log 15). -/
def Obligations.ProgramImageIsImmutableAlongRuns : Prop :=
  ∀ (k : Nat) (s t : State), s.Inv → Host.Core.run Sys2Proof.core k s = .next t →
    t.Inv ∧ t.params = s.params ∧ t.fault = s.fault ∧
    (∀ a, s.inCode a = true → t.readByte a = s.readByte a) ∧
    (∀ a hw, fetchHalf t a = .ok hw → hw = halfOfBytes (s.readByte a) (s.readByte (a + 1#32)))
end

