-- ==== Sys2Proof/Laws/Decode.lean ====
section
/-! SUPPORT. What each field of a format reads as (spec/30_encoding.md R62 to R79), and the condition codes (R121). -/

namespace Sys2Proof

/-! ### Every field of `hw0` in terms of `top5`, `op6` and `low5` (R62) -/

theorem op4_eq (hw : Half) : op4 hw = (op6 hw).extractLsb' 2 4 := by
  ext i hi; simp [op4, op6]; grind

theorem op5_eq (hw : Half) : op5 hw = (op6 hw).extractLsb' 1 5 := by
  ext i hi; simp [op5, op6]; grind

/-- A halfword is the Format I word of its three fields. -/
theorem formatI_fields (hw : Half) : formatI (top5 hw) (op6 hw) (low5 hw) = hw := by
  ext i hi; simp [formatI, top5, op6, low5]; grind

/-! ### Formats I and II -/

@[simp] theorem top5_formatI (r2 : BitVec 5) (op : BitVec 6) (r1 : BitVec 5) : top5 (formatI r2 op r1) = r2 := by
  ext i hi; simp [top5, formatI]; grind

@[simp] theorem op6_formatI (r2 : BitVec 5) (op : BitVec 6) (r1 : BitVec 5) : op6 (formatI r2 op r1) = op := by
  ext i hi; simp [op6, formatI]; grind

@[simp] theorem low5_formatI (r2 : BitVec 5) (op : BitVec 6) (r1 : BitVec 5) : low5 (formatI r2 op r1) = r1 := by
  ext i hi; simp [low5, formatI]; grind

@[simp] theorem op5_formatI (r2 : BitVec 5) (op : BitVec 6) (r1 : BitVec 5) :
    op5 (formatI r2 op r1) = op.extractLsb' 1 5 := by
  rw [op5_eq, op6_formatI]

@[simp] theorem op4_formatI (r2 : BitVec 5) (op : BitVec 6) (r1 : BitVec 5) :
    op4 (formatI r2 op r1) = op.extractLsb' 2 4 := by
  rw [op4_eq, op6_formatI]

/-! ### Format III -/

@[simp] theorem op4_formatIII (d : BitVec 8) (c : BitVec 4) : op4 (formatIII d c) = 0b1011#4 := by
  ext i hi; simp [op4, formatIII]; grind

@[simp] theorem condCode_formatIII (d : BitVec 8) (c : BitVec 4) : condCode (formatIII d c) = c := by
  ext i hi; simp [condCode, formatIII]; grind

theorem formatIII_hi (d : BitVec 8) (c : BitVec 4) : (formatIII d c).extractLsb' 11 5 = d.extractLsb' 3 5 := by
  ext i hi; simp [formatIII]; grind

theorem formatIII_mid (d : BitVec 8) (c : BitVec 4) : (formatIII d c).extractLsb' 4 3 = d.extractLsb' 0 3 := by
  ext i hi; simp [formatIII]; grind

@[simp] theorem disp9Bits_formatIII (d : BitVec 8) (c : BitVec 4) : disp9Bits (formatIII d c) = d := by
  rw [disp9Bits, formatIII_hi, formatIII_mid]; ext i hi; grind

/-! ### Format V -/

/-- The fields of Format V's first halfword (R66). -/
theorem formatV_fields (x : BitVec 6) :
    top5 (0b0000011110#10 ++ x) = 0b00000#5 ∧ op5 (0b0000011110#10 ++ x) = 0b11110#5 ∧
      (0b0000011110#10 ++ x : Half).extractLsb' 0 6 = x ∧
      (op6 (0b0000011110#10 ++ x) = 0b111100#6 ∨ op6 (0b0000011110#10 ++ x) = 0b111101#6) := by
  revert x; decide

/-! ### The second halfword -/

@[simp] theorem top15_append (d : BitVec 15) (b : BitVec 1) : top15 (d ++ b) = d := by
  ext i hi; simp [top15]; grind

@[simp] theorem bit0_append15 (d : BitVec 15) (b : BitVec 1) : bit0 (d ++ b) = b := by
  ext i hi; simp [bit0]; grind

@[simp] theorem top5_append11 (r3 : BitVec 5) (sub : BitVec 11) : top5 (r3 ++ sub) = r3 := by
  ext i hi; simp [top5]; grind

/-- The fields of Format XII's second halfword (R70). -/
theorem formatXII_fields (r3 : BitVec 5) (sub : BitVec 5) (i : BitVec 4) (z : BitVec 2) :
    top5 (r3 ++ sub ++ i ++ z) = r3 ∧ (r3 ++ sub ++ i ++ z : Half).extractLsb' 6 5 = sub ∧
      (r3 ++ sub ++ i ++ z : Half).extractLsb' 2 4 = i ∧ (r3 ++ sub ++ i ++ z : Half).extractLsb' 0 2 = z := by
  refine ⟨?_, ?_, ?_, ?_⟩ <;> (ext k hk; simp [top5]; grind)

/-- The fields of Format XIV's second halfword (R71). -/
theorem formatXIV_fields (r3 : BitVec 5) (d : BitVec 6) (sub : BitVec 5) :
    top5 (r3 ++ d ++ sub) = r3 ∧ (r3 ++ d ++ sub : Half).extractLsb' 5 6 = d ∧ low5 (r3 ++ d ++ sub) = sub := by
  refine ⟨?_, ?_, ?_⟩ <;> (ext k hk; simp [top5, low5]; grind)

/-- Bit 0 of a halfword is bit 0 of its low five bits: what tells JR(1) from Format XIV (R84). -/
theorem bit0_eq_low5 (hw : Half) : bit0 hw = (low5 hw).extractLsb' 0 1 := by
  ext i hi; simp [bit0, low5]

/-! ### Fields put together again -/

theorem disp22_join (d : BitVec 21) : (d.extractLsb' 15 6 ++ d.extractLsb' 0 15 : BitVec 21) = d := by
  ext i hi; grind

theorem disp23_join (d : BitVec 22) : (d.extractLsb' 6 16 ++ d.extractLsb' 0 6 : BitVec 22) = d := by
  ext i hi; grind

theorem disp32_join (d : BitVec 31) : (d.extractLsb' 15 16 ++ d.extractLsb' 0 15 : BitVec 31) = d := by
  ext i hi; grind

theorem imm32_join (d : BitVec 32) : (d.extractLsb' 16 16 ++ d.extractLsb' 0 16 : BitVec 32) = d := by
  ext i hi; grind

theorem imm9_join (d : BitVec 9) : (d.extractLsb' 5 4 ++ d.extractLsb' 0 5 : BitVec 9) = d := by
  ext i hi; grind

/-! ### Condition codes -/

@[simp] theorem condOf_code (c : Cond) : condOf c.code = c := by
  cases c <;> rfl

@[simp] theorem code_condOf (c : BitVec 4) : (condOf c).code = c := by
  revert c; decide

end Sys2Proof
end

