-- ==== Sys2Proof/Laws/State.lean ====
section
/-! SUPPORT. What each update of the state does to each field: one lemma per field per update. -/

namespace Sys2Proof.Machine

/-! ### Advancing and setting the pc -/

@[simp] theorem State.advance_x (s : State) (len : Word) :
    (s.advance len).x = s.x := rfl

@[simp] theorem State.advance_pc (s : State) (len : Word) :
    (s.advance len).pc = s.pc + len := rfl

@[simp] theorem State.advance_psw (s : State) (len : Word) :
    (s.advance len).psw = s.psw := rfl

@[simp] theorem State.advance_mem (s : State) (len : Word) :
    (s.advance len).mem = s.mem := rfl

@[simp] theorem State.advance_fault (s : State) (len : Word) :
    (s.advance len).fault = s.fault := rfl

@[simp] theorem State.advance_params (s : State) (len : Word) :
    (s.advance len).params = s.params := rfl

@[simp] theorem State.jumpTo_x (s : State) (t : Word) :
    (s.jumpTo t).x = s.x := rfl

@[simp] theorem State.jumpTo_pc (s : State) (t : Word) :
    (s.jumpTo t).pc = t := rfl

@[simp] theorem State.jumpTo_psw (s : State) (t : Word) :
    (s.jumpTo t).psw = s.psw := rfl

@[simp] theorem State.jumpTo_mem (s : State) (t : Word) :
    (s.jumpTo t).mem = s.mem := rfl

@[simp] theorem State.jumpTo_fault (s : State) (t : Word) :
    (s.jumpTo t).fault = s.fault := rfl

@[simp] theorem State.jumpTo_params (s : State) (t : Word) :
    (s.jumpTo t).params = s.params := rfl

/-! ### Flags -/

@[simp] theorem State.setPsw_x (s : State) (p : Psw) :
    (s.setPsw p).x = s.x := rfl

@[simp] theorem State.setPsw_pc (s : State) (p : Psw) :
    (s.setPsw p).pc = s.pc := rfl

@[simp] theorem State.setPsw_psw (s : State) (p : Psw) :
    (s.setPsw p).psw = p := rfl

@[simp] theorem State.setPsw_mem (s : State) (p : Psw) :
    (s.setPsw p).mem = s.mem := rfl

@[simp] theorem State.setPsw_fault (s : State) (p : Psw) :
    (s.setPsw p).fault = s.fault := rfl

@[simp] theorem State.setPsw_params (s : State) (p : Psw) :
    (s.setPsw p).params = s.params := rfl

@[simp] theorem State.setAluFlags_x (s : State) (f : AluResult) :
    (s.setAluFlags f).x = s.x := rfl

@[simp] theorem State.setAluFlags_pc (s : State) (f : AluResult) :
    (s.setAluFlags f).pc = s.pc := rfl

@[simp] theorem State.setAluFlags_psw (s : State) (f : AluResult) :
    (s.setAluFlags f).psw = { cy := f.cy, ov := f.ov, s := f.s, z := f.z, sat := s.psw.sat } := rfl

@[simp] theorem State.setAluFlags_mem (s : State) (f : AluResult) :
    (s.setAluFlags f).mem = s.mem := rfl

@[simp] theorem State.setAluFlags_fault (s : State) (f : AluResult) :
    (s.setAluFlags f).fault = s.fault := rfl

@[simp] theorem State.setAluFlags_params (s : State) (f : AluResult) :
    (s.setAluFlags f).params = s.params := rfl

/-! ### Memory -/

@[simp] theorem State.writeByte_x (s : State) (a : Word) (v : Byte) :
    (s.writeByte a v).x = s.x := rfl

@[simp] theorem State.writeByte_pc (s : State) (a : Word) (v : Byte) :
    (s.writeByte a v).pc = s.pc := rfl

@[simp] theorem State.writeByte_psw (s : State) (a : Word) (v : Byte) :
    (s.writeByte a v).psw = s.psw := rfl

@[simp] theorem State.writeByte_mem (s : State) (a : Word) (v : Byte) :
    (s.writeByte a v).mem = Memory.write s.mem a.toNat v := rfl

@[simp] theorem State.writeByte_fault (s : State) (a : Word) (v : Byte) :
    (s.writeByte a v).fault = s.fault := rfl

@[simp] theorem State.writeByte_params (s : State) (a : Word) (v : Byte) :
    (s.writeByte a v).params = s.params := rfl

@[simp] theorem State.putWord_x (s : State) (adr v : Word) :
    (s.putWord adr v).x = s.x := rfl

@[simp] theorem State.putWord_pc (s : State) (adr v : Word) :
    (s.putWord adr v).pc = s.pc := rfl

@[simp] theorem State.putWord_psw (s : State) (adr v : Word) :
    (s.putWord adr v).psw = s.psw := rfl

@[simp] theorem State.putWord_mem (s : State) (adr v : Word) :
    (s.putWord adr v).mem = Memory.write (Memory.write (Memory.write (Memory.write s.mem adr.toNat (v.extractLsb' 0 8))
      (adr + 1#32).toNat (v.extractLsb' 8 8)) (adr + 2#32).toNat (v.extractLsb' 16 8))
      (adr + 3#32).toNat (v.extractLsb' 24 8) := rfl

@[simp] theorem State.putWord_fault (s : State) (adr v : Word) :
    (s.putWord adr v).fault = s.fault := rfl

@[simp] theorem State.putWord_params (s : State) (adr v : Word) :
    (s.putWord adr v).params = s.params := rfl

/-! ### Registers -/

@[simp] theorem State.writeReg_pc (s : State) (r : Reg) (v : Word) : (s.writeReg r v).pc = s.pc := by
  unfold State.writeReg; split <;> rfl

@[simp] theorem State.writeReg_psw (s : State) (r : Reg) (v : Word) : (s.writeReg r v).psw = s.psw := by
  unfold State.writeReg; split <;> rfl

@[simp] theorem State.writeReg_mem (s : State) (r : Reg) (v : Word) : (s.writeReg r v).mem = s.mem := by
  unfold State.writeReg; split <;> rfl

@[simp] theorem State.writeReg_fault (s : State) (r : Reg) (v : Word) : (s.writeReg r v).fault = s.fault := by
  unfold State.writeReg; split <;> rfl

@[simp] theorem State.writeReg_params (s : State) (r : Reg) (v : Word) : (s.writeReg r v).params = s.params := by
  unfold State.writeReg; split <;> rfl

/-- A register read depends on the register file alone. -/
theorem State.readReg_congr {s t : State} (h : t.x = s.x) (r : Reg) : t.readReg r = s.readReg r := by
  unfold State.readReg; simp only [h]

/-- A byte read depends on memory alone. -/
theorem State.readByte_congr {s t : State} (h : t.mem = s.mem) (a : Word) : t.readByte a = s.readByte a := by
  unfold State.readByte; rw [h]

@[simp] theorem State.advance_readReg (s : State) (len : Word) (r : Reg) :
    (s.advance len).readReg r = s.readReg r := State.readReg_congr rfl r

@[simp] theorem State.jumpTo_readReg (s : State) (t : Word) (r : Reg) :
    (s.jumpTo t).readReg r = s.readReg r := State.readReg_congr rfl r

@[simp] theorem State.setPsw_readReg (s : State) (p : Psw) (r : Reg) :
    (s.setPsw p).readReg r = s.readReg r := State.readReg_congr rfl r

@[simp] theorem State.setAluFlags_readReg (s : State) (f : AluResult) (r : Reg) :
    (s.setAluFlags f).readReg r = s.readReg r := State.readReg_congr rfl r

@[simp] theorem State.writeByte_readReg (s : State) (a : Word) (v : Byte) (r : Reg) :
    (s.writeByte a v).readReg r = s.readReg r := State.readReg_congr rfl r

@[simp] theorem State.putWord_readReg (s : State) (adr v : Word) (r : Reg) :
    (s.putWord adr v).readReg r = s.readReg r := State.readReg_congr rfl r

@[simp] theorem State.advance_readByte (s : State) (len : Word) (b : Word) :
    (s.advance len).readByte b = s.readByte b := State.readByte_congr rfl b

@[simp] theorem State.jumpTo_readByte (s : State) (t : Word) (b : Word) :
    (s.jumpTo t).readByte b = s.readByte b := State.readByte_congr rfl b

@[simp] theorem State.setPsw_readByte (s : State) (p : Psw) (b : Word) :
    (s.setPsw p).readByte b = s.readByte b := State.readByte_congr rfl b

@[simp] theorem State.setAluFlags_readByte (s : State) (f : AluResult) (b : Word) :
    (s.setAluFlags f).readByte b = s.readByte b := State.readByte_congr rfl b

@[simp] theorem State.writeReg_readByte (s : State) (r : Reg) (v : Word) (b : Word) :
    (s.writeReg r v).readByte b = s.readByte b := State.readByte_congr (by simp) b

/-- Which bytes are valid memory depends on the parameters alone. -/
theorem State.memValid_congr {s t : State} (h : t.params = s.params) (a : Word) : t.memValid a = s.memValid a := by
  unfold State.memValid; rw [h]

/-- Which bytes lie in the program image depends on the parameters alone. -/
theorem State.inCode_congr {s t : State} (h : t.params = s.params) (a : Word) : t.inCode a = s.inCode a := by
  unfold State.inCode; rw [h]

end Sys2Proof.Machine
end

