-- ==== Sys2Proof/Laws/Registers.lean ====
section
/-! SUPPORT. Reading a general register after writing one (spec/10_state.md R20, R21). -/

namespace Sys2Proof.Machine

@[simp] theorem State.readReg_zero (s : State) : s.readReg 0#5 = 0#32 := by
  simp [State.readReg]

@[simp] theorem State.writeReg_zero (s : State) (v : Word) : s.writeReg 0#5 v = s := by
  simp [State.writeReg]

/-- A register other than `r0` reads as what was written to it. -/
theorem State.readReg_writeReg_self (s : State) {r : Reg} (h : r ≠ 0#5) (v : Word) :
    (s.writeReg r v).readReg r = v := by
  simp [State.readReg, State.writeReg, h]

/-- Every register but the one written reads as before. -/
theorem State.readReg_writeReg_ne (s : State) {q r : Reg} (h : q ≠ r) (v : Word) :
    (s.writeReg r v).readReg q = s.readReg q := by
  by_cases hr : r = 0#5
  · simp [hr]
  by_cases hq : q = 0#5
  · simp [hq]
  have hne : r.toNat - 1 ≠ q.toNat - 1 := by
    intro e
    apply h
    apply BitVec.eq_of_toNat_eq
    have h1 : r.toNat ≠ 0 := fun c => hr (BitVec.eq_of_toNat_eq c)
    have h2 : q.toNat ≠ 0 := fun c => hq (BitVec.eq_of_toNat_eq c)
    omega
  simp only [State.readReg, State.writeReg, if_neg hr, if_neg hq]
  exact Vector.getElem_set_ne _ _ hne

/-- What a register reads as after a write: all cases at once. -/
theorem State.readReg_writeReg (s : State) (q r : Reg) (v : Word) :
    (s.writeReg r v).readReg q = if q = r then (if r = 0#5 then 0#32 else v) else s.readReg q := by
  by_cases h : q = r
  · subst h
    by_cases hq : q = 0#5
    · simp [hq]
    · simp [hq, State.readReg_writeReg_self s hq v]
  · simp [h, State.readReg_writeReg_ne s h v]

end Sys2Proof.Machine
end

