-- ==== Sys2Proof/Laws/Memory.lean ====
section
/-! SUPPORT. Memory: reading after writing, the canonical form, and what the word accesses and the ends of loads and
stores can answer (spec/20_memory.md R41 to R54). -/

namespace Sys2Proof.Machine

/-! ### One byte -/

theorem Memory.read_without_self (m : Memory) (a : Nat) :
    Memory.read (Memory.without m a) a = Config.unlistedByte := by
  induction m with
  | nil => rfl
  | cons c m ih =>
    obtain ⟨k, b⟩ := c
    by_cases h : k = a <;> simp [Memory.without, Memory.read, h, ih]

theorem Memory.read_without_ne (m : Memory) {a a' : Nat} (h : a' ≠ a) :
    Memory.read (Memory.without m a) a' = Memory.read m a' := by
  induction m with
  | nil => rfl
  | cons c m ih =>
    obtain ⟨k, b⟩ := c
    by_cases hk : k = a
    · subst hk; simp [Memory.without, Memory.read, ih, h.symm]
    · simp only [Memory.without, if_neg hk, Memory.read, ih]

theorem Memory.read_place_self (m : Memory) (a : Nat) (v : Byte) (h : ∀ c ∈ m, c.1 ≠ a) :
    Memory.read (Memory.place m a v) a = v := by
  induction m with
  | nil => simp [Memory.place, Memory.read]
  | cons c m ih =>
    obtain ⟨k, b⟩ := c
    have hk : k ≠ a := h (k, b) (by simp)
    by_cases hlt : a < k
    · simp [Memory.place, Memory.read, hlt]
    · simp [Memory.place, Memory.read, hlt, hk, ih fun c hc => h c (by simp [hc])]

theorem Memory.read_place_ne (m : Memory) {a a' : Nat} (v : Byte) (h : a' ≠ a) :
    Memory.read (Memory.place m a v) a' = Memory.read m a' := by
  induction m with
  | nil => simp [Memory.place, Memory.read, h.symm]
  | cons c m ih =>
    obtain ⟨k, b⟩ := c
    by_cases hlt : a < k
    · simp [Memory.place, Memory.read, hlt, h.symm]
    · simp only [Memory.place, if_neg hlt, Memory.read, ih]

theorem Memory.without_ne (m : Memory) (a : Nat) : ∀ c ∈ Memory.without m a, c.1 ≠ a := by
  induction m with
  | nil => simp [Memory.without]
  | cons c m ih =>
    obtain ⟨k, b⟩ := c
    by_cases hk : k = a
    · simpa [Memory.without, hk] using ih
    · intro c hc
      simp only [Memory.without, if_neg hk, List.mem_cons] at hc
      rcases hc with rfl | hc
      · exact hk
      · exact ih c hc

/-- The byte written is the byte read, in every list, canonical or not. -/
theorem Memory.read_write_self (m : Memory) (a : Nat) (v : Byte) : Memory.read (Memory.write m a v) a = v := by
  unfold Memory.write
  split
  · next h => rw [h, Memory.read_without_self]
  · exact Memory.read_place_self _ _ _ (Memory.without_ne m a)

/-- Every other byte reads as before. -/
theorem Memory.read_write_ne (m : Memory) {a a' : Nat} (v : Byte) (h : a' ≠ a) :
    Memory.read (Memory.write m a v) a' = Memory.read m a' := by
  unfold Memory.write
  split
  · exact Memory.read_without_ne m h
  · rw [Memory.read_place_ne _ v h, Memory.read_without_ne m h]

theorem State.readByte_writeByte (s : State) (a b : Word) (v : Byte) :
    (s.writeByte a v).readByte b = if b = a then v else s.readByte b := by
  by_cases h : b = a
  · subst h; simp [State.readByte, Memory.read_write_self]
  · have : b.toNat ≠ a.toNat := fun e => h (BitVec.eq_of_toNat_eq e)
    simp [State.readByte, h, Memory.read_write_ne _ v this]

/-! ### The canonical form -/

/-- `wfFrom` spelled out: every entry lies above the bound, the entries rise, and none is redundant. -/
theorem Memory.wfFrom_cons (lo : Option Nat) (k : Nat) (b : Byte) (m : Memory) :
    Memory.wfFrom lo ((k, b) :: m) = true ↔
      (∀ l, lo = some l → l < k) ∧ k < 4294967296 ∧ b ≠ Config.unlistedByte ∧ Memory.wfFrom (some k) m = true := by
  cases lo <;> simp [Memory.wfFrom, and_assoc]

/-- A lower bound may be lowered. -/
theorem Memory.wfFrom_weaken {lo lo' : Option Nat} {m : Memory} (h : Memory.wfFrom lo m = true)
    (hle : ∀ l', lo' = some l' → ∃ l, lo = some l ∧ l' ≤ l) : Memory.wfFrom lo' m = true := by
  cases m with
  | nil => simp [Memory.wfFrom]
  | cons c m =>
    obtain ⟨k, b⟩ := c
    rw [Memory.wfFrom_cons] at h ⊢
    refine ⟨fun l' hl' => ?_, h.2⟩
    obtain ⟨l, hl, hll⟩ := hle l' hl'
    exact lt_of_le_of_lt hll (h.1 l hl)

theorem Memory.wfFrom_without {lo : Option Nat} {m : Memory} (h : Memory.wfFrom lo m = true) (a : Nat) :
    Memory.wfFrom lo (Memory.without m a) = true := by
  induction m generalizing lo with
  | nil => simp [Memory.without, Memory.wfFrom]
  | cons c m ih =>
    obtain ⟨k, b⟩ := c
    rw [Memory.wfFrom_cons] at h
    by_cases hk : k = a
    · simp only [Memory.without, if_pos hk]
      refine ih (Memory.wfFrom_weaken h.2.2.2 fun l hl => ⟨k, rfl, le_of_lt (h.1 l hl)⟩)
    · simp only [Memory.without, if_neg hk]
      exact (Memory.wfFrom_cons ..).2 ⟨h.1, h.2.1, h.2.2.1, ih h.2.2.2⟩

theorem Memory.wfFrom_place {lo : Option Nat} {m : Memory} (h : Memory.wfFrom lo m = true) {a : Nat} {v : Byte}
    (hlo : ∀ l, lo = some l → l < a) (ha : a < 4294967296) (hv : v ≠ Config.unlistedByte)
    (hne : ∀ c ∈ m, c.1 ≠ a) : Memory.wfFrom lo (Memory.place m a v) = true := by
  induction m generalizing lo with
  | nil => exact (Memory.wfFrom_cons ..).2 ⟨hlo, ha, hv, by simp [Memory.wfFrom]⟩
  | cons c m ih =>
    obtain ⟨k, b⟩ := c
    have h' := (Memory.wfFrom_cons ..).1 h
    have hk : k ≠ a := hne (k, b) (by simp)
    by_cases hlt : a < k
    · simp only [Memory.place, if_pos hlt]
      exact (Memory.wfFrom_cons ..).2 ⟨hlo, ha, hv, (Memory.wfFrom_cons ..).2
        ⟨fun l hl => by cases hl; exact hlt, h'.2⟩⟩
    · simp only [Memory.place, if_neg hlt]
      exact (Memory.wfFrom_cons ..).2 ⟨h'.1, h'.2.1, h'.2.2.1,
        ih h'.2.2.2 (fun l hl => by cases hl; omega) fun c hc => hne c (by simp [hc])⟩

/-- Storing a byte keeps the canonical form. -/
theorem Memory.wf_write {m : Memory} (h : Memory.wf m = true) {a : Nat} (ha : a < 4294967296) (v : Byte) :
    Memory.wf (Memory.write m a v) = true := by
  unfold Memory.write
  split
  · exact Memory.wfFrom_without h a
  · next hv => exact Memory.wfFrom_place (Memory.wfFrom_without h a) (by simp) ha hv (Memory.without_ne m a)

theorem State.wf_writeByte {s : State} (h : Memory.wf s.mem = true) (a : Word) (v : Byte) :
    Memory.wf (s.writeByte a v).mem = true :=
  Memory.wf_write h a.isLt v

theorem State.wf_putWord {s : State} (h : Memory.wf s.mem = true) (adr v : Word) :
    Memory.wf (s.putWord adr v).mem = true :=
  State.wf_writeByte (State.wf_writeByte (State.wf_writeByte (State.wf_writeByte h ..) ..) ..) ..

theorem State.wf_putBytes {s : State} (h : Memory.wf s.mem = true) (a : Word) (bs : List Byte) :
    Memory.wf (s.putBytes a bs).mem = true := by
  induction bs generalizing s a with
  | nil => exact h
  | cons b bs ih => exact ih (State.wf_writeByte h a b) _

theorem State.reset_mem_wf : Memory.wf State.reset.mem = true := rfl

/-! ### One word -/

/-- The four addresses of a word are distinct. -/
theorem wordAddrs_nodup (adr : Word) : (wordAddrs adr).Nodup := by
  simp [wordAddrs]

/-- What a byte reads as after a word is put in memory. -/
theorem State.readByte_putWord (s : State) (adr v b : Word) :
    (s.putWord adr v).readByte b =
      if b = adr + 3#32 then v.extractLsb' 24 8
      else if b = adr + 2#32 then v.extractLsb' 16 8
      else if b = adr + 1#32 then v.extractLsb' 8 8
      else if b = adr then v.extractLsb' 0 8
      else s.readByte b := by
  simp only [State.putWord, State.readByte_writeByte]

/-- A byte outside the word reads as before. -/
theorem State.readByte_putWord_ne (s : State) {adr b : Word} (v : Word) (h : b ∉ wordAddrs adr) :
    (s.putWord adr v).readByte b = s.readByte b := by
  simp only [wordAddrs, List.mem_cons, List.not_mem_nil, or_false, not_or] at h
  rw [State.readByte_putWord, if_neg h.2.2.2, if_neg h.2.2.1, if_neg h.2.1, if_neg h.1]

/-- Everything `MemRead` can answer, in the order of its checks (R41, R187). -/
theorem memRead_cases (s : State) (adr : Word) :
    (aligned4 adr = false ∧ memRead s adr = .error (.misalignedAccess adr)) ∨
    (aligned4 adr = true ∧ (wordAddrs adr).all s.memValid = false ∧ memRead s adr = .error (.accessFault adr)) ∨
    (WordOk s adr ∧ memRead s adr = .ok (s.wordAt adr)) := by
  unfold memRead WordOk
  cases h1 : aligned4 adr <;> cases h2 : (wordAddrs adr).all s.memValid <;> simp

/-- Everything `MemWrite` can answer, in the order of its checks (R41, R187). -/
theorem memWrite_cases (s : State) (adr v : Word) :
    (aligned4 adr = false ∧ memWrite s adr v = .error (.misalignedAccess adr)) ∨
    (aligned4 adr = true ∧ (wordAddrs adr).all s.memValid = false ∧ memWrite s adr v = .error (.accessFault adr)) ∨
    (WordOk s adr ∧ (wordAddrs adr).any s.inCode = true ∧ memWrite s adr v = .error (.storeToCode adr)) ∨
    (WordOk s adr ∧ (wordAddrs adr).any s.inCode = false ∧ memWrite s adr v = .ok (s.putWord adr v)) := by
  unfold memWrite WordOk
  cases h1 : aligned4 adr <;> cases h2 : (wordAddrs adr).all s.memValid <;>
    cases h3 : (wordAddrs adr).any s.inCode <;> simp

/-- Everything a load's end can answer with a next state. -/
theorem loadWord_next {s t : State} {adr len : Word} {r : Reg} (h : loadWord s adr r len = .next t) :
    WordOk s adr ∧ t = (s.writeReg r (s.wordAt adr)).advance len := by
  unfold loadWord raise at h
  rcases memRead_cases s adr with ⟨_, e⟩ | ⟨_, _, e⟩ | ⟨ok, e⟩ <;> rw [e] at h <;> cases h
  exact ⟨ok, rfl⟩

/-- Everything a store's end can answer with a next state. -/
theorem storeWord_next {s t : State} {adr v len : Word} (h : storeWord s adr v len = .next t) :
    WordOk s adr ∧ (wordAddrs adr).any s.inCode = false ∧ t = (s.putWord adr v).advance len := by
  unfold storeWord raise at h
  rcases memWrite_cases s adr v with ⟨_, e⟩ | ⟨_, _, e⟩ | ⟨_, _, e⟩ | ⟨ok, nc, e⟩ <;> rw [e] at h <;> cases h
  exact ⟨ok, nc, rfl⟩

end Sys2Proof.Machine
end

