-- ==== Sys2Proof/Laws/PerInstr.lean ====
section
/-! SUPPORT. Facts about every instruction as syntax, one lemma per constructor. -/

namespace Sys2Proof.Laws.EncodedLength

/-- An instruction's encoding has as many bytes as R60 gives its form, and 2, 4 or 6 of them. -/
def Statement (i : Instr) : Prop := (encodeBytes i).length = i.len ∧ i.len ∈ [2, 4, 6]

theorem addReg (reg1 reg2 : Reg) : Statement (.addReg reg1 reg2) :=
  ⟨rfl, by simp [Instr.len]⟩

theorem addImm5 (imm5 : BitVec 5) (reg2 : Reg) : Statement (.addImm5 imm5 reg2) :=
  ⟨rfl, by simp [Instr.len]⟩

theorem cmpReg (reg1 reg2 : Reg) : Statement (.cmpReg reg1 reg2) :=
  ⟨rfl, by simp [Instr.len]⟩

theorem cmpImm5 (imm5 : BitVec 5) (reg2 : Reg) : Statement (.cmpImm5 imm5 reg2) :=
  ⟨rfl, by simp [Instr.len]⟩

theorem movReg (reg1 reg2 : Reg) : Statement (.movReg reg1 reg2) :=
  ⟨rfl, by simp [Instr.len]⟩

theorem movImm5 (imm5 : BitVec 5) (reg2 : Reg) : Statement (.movImm5 imm5 reg2) :=
  ⟨rfl, by simp [Instr.len]⟩

theorem movImm32 (imm32 : BitVec 32) (reg1 : Reg) : Statement (.movImm32 imm32 reg1) :=
  ⟨rfl, by simp [Instr.len]⟩

theorem sub (reg1 reg2 : Reg) : Statement (.sub reg1 reg2) :=
  ⟨rfl, by simp [Instr.len]⟩

theorem bv (disp9Hi : BitVec 8) : Statement (.bv disp9Hi) :=
  ⟨rfl, by simp [Instr.len]⟩

theorem bl (disp9Hi : BitVec 8) : Statement (.bl disp9Hi) :=
  ⟨rfl, by simp [Instr.len]⟩

theorem be (disp9Hi : BitVec 8) : Statement (.be disp9Hi) :=
  ⟨rfl, by simp [Instr.len]⟩

theorem bnh (disp9Hi : BitVec 8) : Statement (.bnh disp9Hi) :=
  ⟨rfl, by simp [Instr.len]⟩

theorem bn (disp9Hi : BitVec 8) : Statement (.bn disp9Hi) :=
  ⟨rfl, by simp [Instr.len]⟩

theorem br (disp9Hi : BitVec 8) : Statement (.br disp9Hi) :=
  ⟨rfl, by simp [Instr.len]⟩

theorem blt (disp9Hi : BitVec 8) : Statement (.blt disp9Hi) :=
  ⟨rfl, by simp [Instr.len]⟩

theorem ble (disp9Hi : BitVec 8) : Statement (.ble disp9Hi) :=
  ⟨rfl, by simp [Instr.len]⟩

theorem bnv (disp9Hi : BitVec 8) : Statement (.bnv disp9Hi) :=
  ⟨rfl, by simp [Instr.len]⟩

theorem bnl (disp9Hi : BitVec 8) : Statement (.bnl disp9Hi) :=
  ⟨rfl, by simp [Instr.len]⟩

theorem bne (disp9Hi : BitVec 8) : Statement (.bne disp9Hi) :=
  ⟨rfl, by simp [Instr.len]⟩

theorem bh (disp9Hi : BitVec 8) : Statement (.bh disp9Hi) :=
  ⟨rfl, by simp [Instr.len]⟩

theorem bp (disp9Hi : BitVec 8) : Statement (.bp disp9Hi) :=
  ⟨rfl, by simp [Instr.len]⟩

theorem bsa (disp9Hi : BitVec 8) : Statement (.bsa disp9Hi) :=
  ⟨rfl, by simp [Instr.len]⟩

theorem bge (disp9Hi : BitVec 8) : Statement (.bge disp9Hi) :=
  ⟨rfl, by simp [Instr.len]⟩

theorem bgt (disp9Hi : BitVec 8) : Statement (.bgt disp9Hi) :=
  ⟨rfl, by simp [Instr.len]⟩

theorem jrDisp22 (disp22Hi : BitVec 21) : Statement (.jrDisp22 disp22Hi) :=
  ⟨rfl, by simp [Instr.len]⟩

theorem jrDisp32 (disp32Hi : BitVec 31) : Statement (.jrDisp32 disp32Hi) :=
  ⟨rfl, by simp [Instr.len]⟩

theorem jmpReg (reg1 : Reg) : Statement (.jmpReg reg1) :=
  ⟨rfl, by simp [Instr.len]⟩

theorem jmpDisp32 (disp32Hi : BitVec 31) (reg1 : Reg) : Statement (.jmpDisp32 disp32Hi reg1) :=
  ⟨rfl, by simp [Instr.len]⟩

theorem mulReg (reg1 reg2 reg3 : Reg) : Statement (.mulReg reg1 reg2 reg3) :=
  ⟨rfl, by simp [Instr.len]⟩

theorem mulImm9 (imm9 : BitVec 9) (reg2 reg3 : Reg) : Statement (.mulImm9 imm9 reg2 reg3) :=
  ⟨rfl, by simp [Instr.len]⟩

theorem stwDisp16 (reg2 : Reg) (disp16Hi : BitVec 15) (reg1 : Reg) : Statement (.stwDisp16 reg2 disp16Hi reg1) :=
  ⟨rfl, by simp [Instr.len]⟩

theorem stwDisp23 (reg3 : Reg) (disp23Hi : BitVec 22) (reg1 : Reg) : Statement (.stwDisp23 reg3 disp23Hi reg1) :=
  ⟨rfl, by simp [Instr.len]⟩

theorem ldwDisp16 (disp16Hi : BitVec 15) (reg1 reg2 : Reg) : Statement (.ldwDisp16 disp16Hi reg1 reg2) :=
  ⟨rfl, by simp [Instr.len]⟩

theorem ldwDisp23 (disp23Hi : BitVec 22) (reg1 reg3 : Reg) : Statement (.ldwDisp23 disp23Hi reg1 reg3) :=
  ⟨rfl, by simp [Instr.len]⟩

end Sys2Proof.Laws.EncodedLength
end

