-- ==== Sys2Proof/Laws/Step.lean ====
section
/-! SUPPORT. What a fetch and a step can answer, the shared ends of branches and multiplies, and what every instruction
that completes has done. -/

namespace Sys2Proof.Machine

/-- A halfword is fetched exactly where its address has not wrapped and both its bytes may be fetched (R46, R55). -/
theorem fetchHalf_ok (s : State) (a : Word) (hw : Half) :
    fetchHalf s a = .ok hw ↔
      s.pc.toNat ≤ a.toNat ∧ s.fetchable a = true ∧ s.fetchable (a + 1#32) = true ∧
        halfOfBytes (s.readByte a) (s.readByte (a + 1#32)) = hw := by
  unfold fetchHalf
  by_cases h1 : a.toNat < s.pc.toNat
  · simp [h1]
  · cases h2 : s.fetchable a <;> cases h3 : s.fetchable (a + 1#32) <;> simp [h1, Nat.le_of_not_lt]

/-- The only faults of a halfword's fetch (R54, R55). -/
theorem fetchHalf_error {s : State} {a : Word} {f : Fault} (h : fetchHalf s a = .error f) :
    (a.toNat < s.pc.toNat ∧ f = .fetchFault s.pc) ∨
      (s.pc.toNat ≤ a.toNat ∧ (s.fetchable a && s.fetchable (a + 1#32)) = false ∧ f = .fetchFault a) := by
  unfold fetchHalf at h
  by_cases h1 : a.toNat < s.pc.toNat
  · rw [if_pos h1] at h; cases h; exact .inl ⟨h1, rfl⟩
  · rw [if_neg h1] at h
    by_cases h2 : (s.fetchable a && s.fetchable (a + 1#32)) = false
    · rw [if_pos h2] at h; cases h; exact .inr ⟨Nat.le_of_not_lt h1, h2, rfl⟩
    · rw [if_neg h2] at h; cases h

/-- Everything the next instruction can be taken from: no fault is set, the halfwords were fetched, and they match a
row (R82, R186). -/
theorem nextInstr_ok {s : State} {i : Instr} (h : nextInstr s = .ok i) :
    s.fault = none ∧ ∃ hw0 hw1 hw2, fetch s = .ok (hw0, hw1, hw2) ∧
      decode s.params.jmpEncodingAdmitted hw0 hw1 hw2 = some i := by
  unfold nextInstr at h
  split at h
  · cases h
  · next hf =>
    split at h
    · cases h
    · next hw0 hw1 hw2 he =>
      split at h
      · next hd => cases h; exact ⟨hf, hw0, hw1, hw2, he, hd⟩
      · cases h

/-- Everything a step that answers a next state has done. -/
theorem step_next {s t : State} (h : step s = .next t) : ∃ i, nextInstr s = .ok i ∧ exec i s = .next t := by
  unfold step at h
  split at h
  · cases h
  · next i hi => exact ⟨i, hi, h⟩

/-- A conditional branch's end changes the pc and nothing else. -/
theorem branchIf_eq (taken : Bool) (disp : Word) (s : State) :
    branchIf taken disp s = .next { s with pc := if taken then s.pc + disp else s.pc + 2#32 } := by
  cases taken <;> rfl

/-- What every register reads as after a multiply's end. -/
theorem multiplyInto_next {a b : Word} {reg2 reg3 : Reg} {s t : State} (h : multiplyInto a b reg2 reg3 s = .next t) :
    t.pc = s.pc + 4#32 ∧ t.psw = s.psw ∧ t.mem = s.mem ∧ t.fault = s.fault ∧ t.params = s.params ∧
      ∀ q, t.readReg q =
        if q = reg3 then (if reg3 = 0#5 then 0#32 else (BitVec.ofInt 64 (a.toInt * b.toInt)).extractLsb' 32 32)
        else if q = reg2 then (if reg2 = 0#5 then 0#32 else (BitVec.ofInt 64 (a.toInt * b.toInt)).extractLsb' 0 32)
        else s.readReg q := by
  unfold multiplyInto at h
  injection h with h
  subst h
  refine ⟨by simp, by simp, by simp, by simp, by simp, fun q => ?_⟩
  rw [State.advance_readReg, State.readReg_writeReg, State.readReg_writeReg]

/-! ### Every instruction -/

/-- Everything an instruction that completes has done: a jump; flags; a register and flags; a register; two registers;
or a word of memory; and, but for the jump, the pc advanced by its length. -/
theorem exec_next {i : Instr} {s t : State} (h : exec i s = .next t) :
    (isBranch i = true ∧ ∃ a, t = s.jumpTo a) ∨
    (∃ f, destRegs i = [] ∧ writesFlags i = true ∧ storeAddr s i = none ∧ isBranch i = false ∧
      t = (s.setAluFlags f).advance (BitVec.ofNat 32 i.len)) ∨
    (∃ r v f, destRegs i = [r] ∧ writesFlags i = true ∧ storeAddr s i = none ∧ isBranch i = false ∧
      t = ((s.writeReg r v).setAluFlags f).advance (BitVec.ofNat 32 i.len)) ∨
    (∃ r v, destRegs i = [r] ∧ storeAddr s i = none ∧ isBranch i = false ∧
      t = (s.writeReg r v).advance (BitVec.ofNat 32 i.len)) ∨
    (∃ q r v w, destRegs i = [q, r] ∧ storeAddr s i = none ∧ isBranch i = false ∧
      t = ((s.writeReg q v).writeReg r w).advance (BitVec.ofNat 32 i.len)) ∨
    (∃ adr v, destRegs i = [] ∧ storeAddr s i = some adr ∧ isBranch i = false ∧ StoreOk s adr ∧
      t = (s.putWord adr v).advance (BitVec.ofNat 32 i.len)) := by
  cases i with
  | addReg a b => injection h with h; exact .inr (.inr (.inl ⟨_, _, _, rfl, rfl, rfl, rfl, h.symm⟩))
  | addImm5 a b => injection h with h; exact .inr (.inr (.inl ⟨_, _, _, rfl, rfl, rfl, rfl, h.symm⟩))
  | sub a b => injection h with h; exact .inr (.inr (.inl ⟨_, _, _, rfl, rfl, rfl, rfl, h.symm⟩))
  | cmpReg a b => injection h with h; exact .inr (.inl ⟨_, rfl, rfl, rfl, rfl, h.symm⟩)
  | cmpImm5 a b => injection h with h; exact .inr (.inl ⟨_, rfl, rfl, rfl, rfl, h.symm⟩)
  | movReg a b =>
    simp only [exec, execMovReg] at h
    split at h
    · cases h
    · injection h with h; exact .inr (.inr (.inr (.inl ⟨_, _, rfl, rfl, rfl, h.symm⟩)))
  | movImm5 a b =>
    simp only [exec, execMovImm5] at h
    split at h
    · cases h
    · injection h with h; exact .inr (.inr (.inr (.inl ⟨_, _, rfl, rfl, rfl, h.symm⟩)))
  | movImm32 a b => injection h with h; exact .inr (.inr (.inr (.inl ⟨_, _, rfl, rfl, rfl, h.symm⟩)))
  | mulReg a b c => injection h with h; exact .inr (.inr (.inr (.inr (.inl ⟨_, _, _, _, rfl, rfl, rfl, h.symm⟩))))
  | mulImm9 a b c => injection h with h; exact .inr (.inr (.inr (.inr (.inl ⟨_, _, _, _, rfl, rfl, rfl, h.symm⟩))))
  | stwDisp16 a b c =>
    obtain ⟨h1, h2, h3⟩ := storeWord_next h
    exact .inr (.inr (.inr (.inr (.inr ⟨_, _, rfl, rfl, rfl, ⟨h1, h2⟩, h3⟩))))
  | stwDisp23 a b c =>
    obtain ⟨h1, h2, h3⟩ := storeWord_next h
    exact .inr (.inr (.inr (.inr (.inr ⟨_, _, rfl, rfl, rfl, ⟨h1, h2⟩, h3⟩))))
  | ldwDisp16 a b c => exact .inr (.inr (.inr (.inl ⟨_, _, rfl, rfl, rfl, (loadWord_next h).2⟩)))
  | ldwDisp23 a b c => exact .inr (.inr (.inr (.inl ⟨_, _, rfl, rfl, rfl, (loadWord_next h).2⟩)))
  | _ =>
    refine .inl ⟨rfl, ?_⟩
    first
      | (injection h with h; exact ⟨_, h.symm⟩)
      | (have h' := (branchIf_eq _ _ _).symm.trans h; injection h' with h'; exact ⟨_, h'.symm⟩)

/-- No instruction changes the parameters or the fault component (R38, R186). -/
theorem exec_next_rest {i : Instr} {s t : State} (h : exec i s = .next t) : RestSame s t := by
  rcases exec_next h with ⟨_, _, rfl⟩ | ⟨_, _, _, _, _, rfl⟩ | ⟨_, _, _, _, _, _, _, rfl⟩ | ⟨_, _, _, _, _, rfl⟩ |
    ⟨_, _, _, _, _, _, _, rfl⟩ | ⟨_, _, _, _, _, _, rfl⟩ <;> simp [RestSame]

/-- What holds of every state with itself, and passes back over a step, holds of every run's two ends. -/
theorem run_induction {P : State → State → Prop} (refl : ∀ s, P s s)
    (back : ∀ s t u, step s = .next t → P t u → P s u) :
    ∀ k s t, Host.Core.run Sys2Proof.core k s = .next t → P s t := by
  intro k
  induction k with
  | zero => intro s t h; injection h with h; subst h; exact refl s
  | succ k ih =>
    intro s t h
    unfold Host.Core.run at h
    split at h
    · next u hu => exact back s u t hu (ih u t h)
    · cases h
    · cases h

end Sys2Proof.Machine
end

