-- ==== Sys2Proof/Tests/Slice0.lean ====
section
/-! SUPPORT. Tests. Expected values are those of spec/95_test_vectors.md, named by section, or the words of
spec/30_encoding.md R80 written out; the last part meets the hypotheses of the statements on concrete states. -/

namespace Sys2Proof.Tests

open Sys2Proof Sys2Proof.Machine

/-! ### Helpers -/

/-- The flags `CY OV S Z` as four digits, as 95_test_vectors.md writes them. -/
def digits (p : Psw) : BitVec 4 := BitVec.ofBool p.cy ++ BitVec.ofBool p.ov ++ BitVec.ofBool p.s ++ BitVec.ofBool p.z

/-- The reset state with the pc, the flags `CY OV S Z SAT` and some registers set. -/
def start (pc : Word) (flags : BitVec 5) (regs : List (Reg × Word)) : State :=
  regs.foldl (fun s r => s.writeReg r.1 r.2)
    { State.reset with
      pc := pc
      psw := { cy := flags.getLsbD 4, ov := flags.getLsbD 3, s := flags.getLsbD 2, z := flags.getLsbD 1,
               sat := flags.getLsbD 0 } }

/-- The state after one step of the instruction word placed at the pc, if the step has a next state. -/
def after (s : State) (nbits w : Nat) : Option State :=
  match step (s.withFetchWord nbits w) with
  | .next t => some t
  | _ => none

/-- The fault of one step of the instruction word placed at the pc, if it faults. -/
def faultAfter (s : State) (nbits w : Nat) : Option Fault :=
  match step (s.withFetchWord nbits w) with
  | .fault f => some f
  | _ => none

/-! ### Well-formedness: the one ill-formed operand, in either form that forbids it (R83) -/

theorem test_wf_refuses_movReg_to_r0 : Instr.wf (.movReg 6#5 0#5) = false := by decide

theorem test_wf_refuses_movImm5_to_r0 : Instr.wf (.movImm5 15#5 0#5) = false := by decide

theorem test_wf_allows_movImm32_to_r0 : Instr.wf (.movImm32 0#32 0#5) = true := by decide

/-! ### Decoding: a word of every constructor (95 section 2.1, 1.5, 2.7; R80) -/

theorem test_decode_addReg : decodeTableWord 16 0x31C5 = some (.addReg 5#5 6#5) := by decide

theorem test_decode_addImm5 : decodeTableWord 16 0x525F = some (.addImm5 31#5 10#5) := by decide

theorem test_decode_cmpReg : decodeTableWord 16 0x39E6 = some (.cmpReg 6#5 7#5) := by decide

theorem test_decode_cmpImm5 : decodeTableWord 16 0x3A70 = some (.cmpImm5 16#5 7#5) := by decide

theorem test_decode_movReg : decodeTableWord 16 0x3806 = some (.movReg 6#5 7#5) := by decide

theorem test_decode_movImm5 : decodeTableWord 16 0x0A10 = some (.movImm5 16#5 1#5) := by decide

theorem test_decode_movImm32 : decodeTableWord 48 0x123456780627 = some (.movImm32 0x12345678#32 7#5) := by decide

theorem test_decode_sub : decodeTableWord 16 0x11A1 = some (.sub 1#5 2#5) := by decide

theorem test_decode_bv : decodeTableWord 16 0x05A0 = some (.bv 2#8) := by decide

theorem test_decode_bl : decodeTableWord 16 0x05A1 = some (.bl 2#8) := by decide

theorem test_decode_be : decodeTableWord 16 0x05A2 = some (.be 2#8) := by decide

theorem test_decode_bnh : decodeTableWord 16 0x05A3 = some (.bnh 2#8) := by decide

theorem test_decode_bn : decodeTableWord 16 0x05A4 = some (.bn 2#8) := by decide

theorem test_decode_br : decodeTableWord 16 0x05A5 = some (.br 2#8) := by decide

theorem test_decode_blt : decodeTableWord 16 0x05A6 = some (.blt 2#8) := by decide

theorem test_decode_ble : decodeTableWord 16 0x05A7 = some (.ble 2#8) := by decide

theorem test_decode_bnv : decodeTableWord 16 0x05A8 = some (.bnv 2#8) := by decide

theorem test_decode_bnl : decodeTableWord 16 0x05A9 = some (.bnl 2#8) := by decide

theorem test_decode_bne : decodeTableWord 16 0x05AA = some (.bne 2#8) := by decide

theorem test_decode_bh : decodeTableWord 16 0x05AB = some (.bh 2#8) := by decide

theorem test_decode_bp : decodeTableWord 16 0x05AC = some (.bp 2#8) := by decide

theorem test_decode_bsa : decodeTableWord 16 0x05AD = some (.bsa 2#8) := by decide

theorem test_decode_bge : decodeTableWord 16 0x05AE = some (.bge 2#8) := by decide

theorem test_decode_bgt : decodeTableWord 16 0x05AF = some (.bgt 2#8) := by decide

theorem test_decode_jrDisp22 : decodeTableWord 32 0x23440781 = some (.jrDisp22 0x091A2#21) := by decide

theorem test_decode_jrDisp32 : decodeTableWord 48 0x1234567802E0 = some (.jrDisp32 0x091A2B3C#31) := by decide

theorem test_decode_jmpReg : decodeTableWord 16 0x007F = some (.jmpReg 31#5) := by decide

theorem test_decode_jmpDisp32 : decodeTableWord 48 0x0000002006E6 = some (.jmpDisp32 0x10#31 6#5) := by decide

theorem test_decode_mulReg : decodeTableWord 32 0x4A2047E7 = some (.mulReg 7#5 8#5 9#5) := by decide

theorem test_decode_mulImm9 : decodeTableWord 32 0x5A7C57FD = some (.mulImm9 0x1FD#9 10#5 11#5) := by decide

theorem test_decode_stwDisp16 : decodeTableWord 32 0xFFFD4F66 = some (.stwDisp16 9#5 0x7FFE#15 6#5) := by decide

theorem test_decode_stwDisp23 : decodeTableWord 48 0x246845AF0786 = some (.stwDisp23 8#5 0x91A2D#22 6#5) := by decide

theorem test_decode_ldwDisp16 : decodeTableWord 32 0x12354726 = some (.ldwDisp16 0x091A#15 6#5 8#5) := by decide

theorem test_decode_ldwDisp23 : decodeTableWord 48 0x800010090781 = some (.ldwDisp23 0x200000#22 1#5 2#5) := by decide

/-- Section 1.5: `BNE -4`, with every displacement field distinct. -/
theorem test_decode_bne_fields : decodeTableWord 16 0xFDEA = some (.bne 0xFE#8) := by decide

/-- Section 2.1: `JR +0x1FFFFE` shares its first halfword with Format XIV. -/
theorem test_decode_jr_beside_formatXIV : decodeTableWord 32 0xFFFE079F = some (.jrDisp22 0xFFFFF#21) := by decide

/-- Section 2.2: `MOV r31, r0` is reserved. -/
theorem test_decode_refuses_mov_to_r0 : decodeTableWord 16 0x001F = none := by decide

/-- Section 2.2: a MUL with bit 16 set is reserved. -/
theorem test_decode_refuses_fixed_bit : decodeTableWord 32 0x4A2147E7 = none := by decide

/-- Section 2.2: neither JR nor Format XIV. -/
theorem test_decode_refuses_formatXIV_subopcode : decodeTableWord 48 0x020050030786 = none := by decide

/-! ### ADD, CMP, MOV, SUB (95 sections 2.3, 2.4, 2.5) -/

theorem test_addReg_overflows :
    (after (start 0x1000 0b00000 [(6, 0x7FFFFFFF), (5, 1)]) 16 0x31C5).map (fun t => (t.readReg 6, digits t.psw, t.pc)) =
      some (0x80000000, 0b0110, 0x1002) := by decide

theorem test_addReg_to_r0_sets_flags :
    (after (start 0x1000 0b00000 [(6, 0xFFFFFFFE)]) 16 0x01C6).map (fun t => (t.readReg 0, digits t.psw, t.pc)) =
      some (0, 0b0010, 0x1002) := by decide

theorem test_addImm5_wraps :
    (after (start 0x1000 0b00000 [(10, 1)]) 16 0x525F).map (fun t => (t.readReg 10, digits t.psw, t.pc)) =
      some (0, 0b1001, 0x1002) := by decide

theorem test_addImm5_overflows_down :
    (after (start 0x1000 0b00000 [(10, 0x80000000)]) 16 0x5250).map (fun t => (t.readReg 10, digits t.psw, t.pc)) =
      some (0x7FFFFFF0, 0b1100, 0x1002) := by decide

theorem test_cmpReg_borrows_and_overflows :
    (after (start 0x1000 0b00000 [(7, 0x7FFFFFFF), (6, 0xFFFFFFFF)]) 16 0x39E6).map (fun t => (t.readReg 7, digits t.psw, t.pc)) =
      some (0x7FFFFFFF, 0b1110, 0x1002) := by decide

theorem test_cmpReg_less :
    (after (start 0x1000 0b00000 [(7, 3), (6, 5)]) 16 0x39E6).map (fun t => (t.readReg 7, digits t.psw, t.pc)) =
      some (3, 0b1010, 0x1002) := by decide

theorem test_cmpImm5_sign_extends :
    (after (start 0x1000 0b00000 []) 16 0x3A70).map (fun t => (t.readReg 7, digits t.psw, t.pc)) =
      some (0, 0b1000, 0x1002) := by decide

theorem test_cmpImm5_overflows :
    (after (start 0x1000 0b00000 [(7, 0x80000000)]) 16 0x3A61).map (fun t => (t.readReg 7, digits t.psw, t.pc)) =
      some (0x80000000, 0b0100, 0x1002) := by decide

theorem test_movReg_keeps_flags :
    (after (start 0x1000 0b11111 [(6, 0xDEADBEEF)]) 16 0x3806).map (fun t => (t.readReg 7, digits t.psw, t.pc)) =
      some (0xDEADBEEF, 0b1111, 0x1002) := by decide

theorem test_movReg_from_r0 :
    (after (start 0x1000 0b11111 [(6, 0xDEADBEEF)]) 16 0x3000).map (fun t => (t.readReg 6, digits t.psw, t.pc)) =
      some (0, 0b1111, 0x1002) := by decide

theorem test_movImm5_sign_extends :
    (after (start 0x1000 0b11111 []) 16 0x0A10).map (fun t => (t.readReg 1, digits t.psw, t.pc)) =
      some (0xFFFFFFF0, 0b1111, 0x1002) := by decide

theorem test_movImm5_positive :
    (after (start 0x1000 0b00000 []) 16 0x0A0F).map (fun t => (t.readReg 1, digits t.psw, t.pc)) =
      some (0xF, 0b0000, 0x1002) := by decide

theorem test_movImm32_writes_reg1 :
    (after (start 0x1000 0b11111 []) 48 0x123456780627).map (fun t => (t.readReg 7, digits t.psw, t.pc)) =
      some (0x12345678, 0b1111, 0x1006) := by decide

theorem test_movImm32_to_r0 :
    (after (start 0x1000 0b00000 []) 48 0xFFFFFFFF0620).map (fun t => (t.readReg 0, digits t.psw, t.pc)) =
      some (0, 0b0000, 0x1006) := by decide

theorem test_sub_overflows :
    (after (start 0x1000 0b00000 [(6, 0x80000000), (5, 1)]) 16 0x31A5).map (fun t => (t.readReg 6, digits t.psw, t.pc)) =
      some (0x7FFFFFFF, 0b0100, 0x1002) := by decide

theorem test_sub_to_r0_borrows :
    (after (start 0x1000 0b00000 [(5, 3)]) 16 0x01A5).map (fun t => (t.readReg 0, digits t.psw, t.pc)) =
      some (0, 0b1010, 0x1002) := by decide

/-! ### Bcond (95 section 2.7): each code on the flag states A to H, and one step of `B<cond> +4` -/

/-- The flag states A to H, as `CY OV S Z SAT`. -/
def flagStates : List (BitVec 5) :=
  [0b10000, 0b00010, 0b01000, 0b10100, 0b11100, 0b00100, 0b00001, 0b11010]

/-- The column of Table 5-5 for a condition on the flag states A to H. -/
def column (c : Cond) : List Bool := flagStates.map (fun f => condHolds c (start 0 f []).psw)

theorem test_bv_condition : column .v = [false, false, true, false, true, false, false, true] := by decide

theorem test_bv_step :
    [(after (start 0x1000 0b01000 []) 16 0x05A0).map (·.pc),
     (after (start 0x1000 0b10000 []) 16 0x05A0).map (·.pc)] =
      [some 0x1004, some 0x1002] := by decide

theorem test_bl_condition : column .l = [true, false, false, true, true, false, false, true] := by decide

theorem test_bl_step :
    [(after (start 0x1000 0b10000 []) 16 0x05A1).map (·.pc),
     (after (start 0x1000 0b00010 []) 16 0x05A1).map (·.pc)] =
      [some 0x1004, some 0x1002] := by decide

theorem test_be_condition : column .e = [false, true, false, false, false, false, false, true] := by decide

theorem test_be_step :
    [(after (start 0x1000 0b00010 []) 16 0x05A2).map (·.pc),
     (after (start 0x1000 0b10000 []) 16 0x05A2).map (·.pc)] =
      [some 0x1004, some 0x1002] := by decide

theorem test_bnh_condition : column .nh = [true, true, false, true, true, false, false, true] := by decide

theorem test_bnh_step :
    [(after (start 0x1000 0b10000 []) 16 0x05A3).map (·.pc),
     (after (start 0x1000 0b01000 []) 16 0x05A3).map (·.pc)] =
      [some 0x1004, some 0x1002] := by decide

theorem test_bn_condition : column .n = [false, false, false, true, true, true, false, false] := by decide

theorem test_bn_step :
    [(after (start 0x1000 0b10100 []) 16 0x05A4).map (·.pc),
     (after (start 0x1000 0b10000 []) 16 0x05A4).map (·.pc)] =
      [some 0x1004, some 0x1002] := by decide

theorem test_br_condition : column .r = [true, true, true, true, true, true, true, true] := by decide

theorem test_br_step :
    [(after (start 0x1000 0b10000 []) 16 0x05A5).map (·.pc)] =
      [some 0x1004] := by decide

theorem test_blt_condition : column .lt = [false, false, true, true, false, true, false, true] := by decide

theorem test_blt_step :
    [(after (start 0x1000 0b01000 []) 16 0x05A6).map (·.pc),
     (after (start 0x1000 0b10000 []) 16 0x05A6).map (·.pc)] =
      [some 0x1004, some 0x1002] := by decide

theorem test_ble_condition : column .le = [false, true, true, true, false, true, false, true] := by decide

theorem test_ble_step :
    [(after (start 0x1000 0b00010 []) 16 0x05A7).map (·.pc),
     (after (start 0x1000 0b10000 []) 16 0x05A7).map (·.pc)] =
      [some 0x1004, some 0x1002] := by decide

theorem test_bnv_condition : column .nv = [true, true, false, true, false, true, true, false] := by decide

theorem test_bnv_step :
    [(after (start 0x1000 0b10000 []) 16 0x05A8).map (·.pc),
     (after (start 0x1000 0b01000 []) 16 0x05A8).map (·.pc)] =
      [some 0x1004, some 0x1002] := by decide

theorem test_bnl_condition : column .nl = [false, true, true, false, false, true, true, false] := by decide

theorem test_bnl_step :
    [(after (start 0x1000 0b00010 []) 16 0x05A9).map (·.pc),
     (after (start 0x1000 0b10000 []) 16 0x05A9).map (·.pc)] =
      [some 0x1004, some 0x1002] := by decide

theorem test_bne_condition : column .ne = [true, false, true, true, true, true, true, false] := by decide

theorem test_bne_step :
    [(after (start 0x1000 0b10000 []) 16 0x05AA).map (·.pc),
     (after (start 0x1000 0b00010 []) 16 0x05AA).map (·.pc)] =
      [some 0x1004, some 0x1002] := by decide

theorem test_bh_condition : column .h = [false, false, true, false, false, true, true, false] := by decide

theorem test_bh_step :
    [(after (start 0x1000 0b01000 []) 16 0x05AB).map (·.pc),
     (after (start 0x1000 0b10000 []) 16 0x05AB).map (·.pc)] =
      [some 0x1004, some 0x1002] := by decide

theorem test_bp_condition : column .p = [true, true, true, false, false, false, true, true] := by decide

theorem test_bp_step :
    [(after (start 0x1000 0b10000 []) 16 0x05AC).map (·.pc),
     (after (start 0x1000 0b10100 []) 16 0x05AC).map (·.pc)] =
      [some 0x1004, some 0x1002] := by decide

theorem test_bsa_condition : column .sa = [false, false, false, false, false, false, true, false] := by decide

theorem test_bsa_step :
    [(after (start 0x1000 0b00001 []) 16 0x05AD).map (·.pc),
     (after (start 0x1000 0b10000 []) 16 0x05AD).map (·.pc)] =
      [some 0x1004, some 0x1002] := by decide

theorem test_bge_condition : column .ge = [true, true, false, false, true, false, true, false] := by decide

theorem test_bge_step :
    [(after (start 0x1000 0b10000 []) 16 0x05AE).map (·.pc),
     (after (start 0x1000 0b01000 []) 16 0x05AE).map (·.pc)] =
      [some 0x1004, some 0x1002] := by decide

theorem test_bgt_condition : column .gt = [true, false, false, false, true, false, true, false] := by decide

theorem test_bgt_step :
    [(after (start 0x1000 0b10000 []) 16 0x05AF).map (·.pc),
     (after (start 0x1000 0b00010 []) 16 0x05AF).map (·.pc)] =
      [some 0x1004, some 0x1002] := by decide

/-! ### JR, JMP (95 section 2.8) -/

theorem test_jrDisp22_backwards : (after (start 0x1000 0 []) 32 0x000007A0).map (·.pc) = some 0xFFE01000 := by decide

theorem test_jrDisp22_to_itself : (after (start 0x1000 0 []) 32 0x00000780).map (·.pc) = some 0x1000 := by decide

theorem test_jrDisp32_far : (after (start 0x100C 0 []) 48 0x001FEFF402E0).map (·.pc) = some 0x200000 := by decide

theorem test_jrDisp32_backwards : (after (start 0x1000 0 []) 48 0xFFFFFFFA02E0).map (·.pc) = some 0xFFA := by decide

theorem test_jmpReg_drops_bit0 : (after (start 0x1000 0 [(5, 0xFFFFFFFF)]) 16 0x0065).map (·.pc) = some 0xFFFFFFFE := by decide

theorem test_jmpReg_r0 : (after (start 0x1000 0 []) 16 0x0060).map (·.pc) = some 0 := by decide

theorem test_jmpDisp32_drops_bit0 : (after (start 0x200006 0 [(2, 0x1FFF01)]) 48 0x0000011006E2).map (·.pc) = some 0x200010 := by decide

theorem test_jmpDisp32_wraps : (after (start 0x1000 0 [(6, 0x80000004)]) 48 0x7FFFFFFE06E6).map (·.pc) = some 2 := by decide

/-! ### MUL (95 section 2.6) -/

theorem test_mulReg_signed :
    (after (start 0x1000 0b11111 [(7, 0xFFFFFFFE), (8, 3)]) 32 0x4A2047E7).map (fun t => (t.readReg 9, t.readReg 8, digits t.psw, t.pc)) =
      some (0xFFFFFFFF, 0xFFFFFFFA, 0b1111, 0x1004) := by decide

theorem test_mulReg_same_destination :
    (after (start 0x1000 0b11111 [(7, 0xFFFFFFFE), (8, 3)]) 32 0x422047E7).map (fun t => (t.readReg 8, t.readReg 7, digits t.psw, t.pc)) =
      some (0xFFFFFFFF, 0xFFFFFFFE, 0b1111, 0x1004) := by decide

theorem test_mulImm9_sign_extends :
    (after (start 0x1000 0b11111 [(1, 7)]) 32 0x12600FE0).map (fun t => (t.readReg 2, t.readReg 1, digits t.psw, t.pc)) =
      some (0xFFFFFFFF, 0xFFFFF900, 0b1111, 0x1004) := by decide

theorem test_mulImm9_high_word :
    (after (start 0x1000 0b11111 [(1, 0x7FFFFFFF)]) 32 0x125C0FFF).map (fun t => (t.readReg 2, t.readReg 1, digits t.psw, t.pc)) =
      some (0x7F, 0x7FFFFF01, 0b1111, 0x1004) := by decide

/-! ### ST.W, LD.W (95 section 2.9) -/

theorem test_stwDisp16_little_endian :
    (after (start 0x1000 0 [(6, 0x2000), (7, 0x12345678)]) 32 0x00053F66).map (fun t => t.mem.drop 3) =
      some [(0x2004, 0x78), (0x2005, 0x56), (0x2006, 0x34), (0x2007, 0x12)] := by decide

/-- A store into the program is a model fault. -/
theorem test_stwDisp16_into_code :
    faultAfter (start 0x1000 0 [(6, 0x1000), (7, 0x11223344)]) 32 0x00013F66 = some (.storeToCode 0x1000) := by decide

theorem test_stwDisp23_far :
    (after (start 0x1000 0 [(6, 0x2000), (8, 0x1DF4D840)]) 48 0x0200400F0786).map
      (fun t => (t.wordAt 0x12000, t.readByte 0x12000, t.pc)) = some (0x1DF4D840, 0x40, 0x1006) := by decide

/-- The alignment is that of the sum, not of its parts: an even, unaligned address faults. -/
theorem test_stwDisp23_misaligned :
    faultAfter (start 0x1000 0 [(6, 0x2002), (8, 1)]) 48 0x0200400F0786 = some (.misalignedAccess 0x12002) := by decide

/-- The load of the program's own word, which code_region allows. -/
theorem test_ldwDisp16_reads_code :
    (after (start 0x1000 0b11111 [(1, 0x1000)]) 32 0x00011721).map (fun t => (t.readReg 2, digits t.psw, t.pc)) =
      some (0x00011721, 0b1111, 0x1004) := by decide

theorem test_ldwDisp16_misaligned :
    faultAfter (start 0x1000 0 [(6, 0x2000)]) 32 0x00034726 = some (.misalignedAccess 0x2002) := by decide

theorem test_ldwDisp23_negative :
    (after ((start 0x1000 0 [(1, 0x402000)]).putWord 0x2000 0xA5A5A5A5) 48 0x800010090781).map
      (fun t => (t.readReg 2, t.pc)) = some (0xA5A5A5A5, 0x1006) := by decide

/-- The load whose destination is `r0` is done and its value discarded. -/
theorem test_ldwDisp23_to_r0 :
    (after (start 0x1000 0 [(6, 0x2000)]) 48 0x020000090786).map (fun t => (t.readReg 0, t.pc)) =
      some (0, 0x1006) := by decide

/-! ### Faults of the fetch and of the decoder (95 section 2.2; R55, R82, R201) -/

theorem test_step_reserved : faultAfter State.reset 16 0x0205 = some (.reservedInstruction 0x1000 0x0205) := by decide

theorem test_step_straddles_top : faultAfter (start 0xFFFFFFFE 0 []) 32 0x0780 = some (.fetchFault 0xFFFFFFFE) := by decide

theorem test_step_at_reset_has_no_program :
    (match step State.reset with | .fault f => some f | _ => none) = some (.fetchFault 0x1000) := by decide

/-! ### Hypotheses of the statements, met by concrete states and operands -/

/-- A launch with a program image of 16 bytes at 0x1000 and 16 bytes of data at 0x2000. -/
def demoLaunch : Launch :=
  { Launch.reset with
    params :=
      { memValid := [{ base := 0x1000, size := 16 }, { base := 0x2000, size := 16 }]
        codeRegion := [{ base := 0x1000, size := 16 }]
        jmpEncodingAdmitted := true } }

/-- That launch's state with `r1`, `r6` and `r7` set and bytes put at an address, the pc there. -/
def demo (pc : Word) (bs : List Byte) : State :=
  (((({ State.launch demoLaunch with pc := pc }.writeReg 1 0x1000).writeReg 6 0x2000).writeReg 7 0x12345678).putBytes
    pc bs)

/-- The same with an image that holds the top of the address space. -/
def demoTop (pc : Word) (bs : List Byte) : State :=
  { demo pc bs with
    params :=
      { memValid := [{ base := 0, size := 4294967296 }]
        codeRegion := [{ base := 4294967280, size := 16 }]
        jmpEncodingAdmitted := true } }

/-- MovRegCopiesAndFrame, MovImm5WritesAndFrame: both clauses, at the two ends of the destinations that are not `r0`. -/
theorem test_hyp_mov_destinations : (31#5 : Reg) ≠ 0#5 ∧ (1#5 : Reg) ≠ 0#5 ∧ (0#5 : Reg) = 0#5 := by decide

/-- BcondBranchesWhenConditionHolds and the two tables: each condition is met by one of the flag states and, but for
`BR`, which is always taken, failed by another. -/
theorem test_hyp_conditions_both_ways :
    ∀ c ∈ [Cond.v, .l, .e, .nh, .n, .lt, .le, .nv, .nl, .ne, .h, .p, .sa, .ge, .gt],
      true ∈ column c ∧ false ∈ column c := by decide

/-- ConditionCodesPairAsNegations: the codes of BV and BNV, and of BLE and BGT. -/
theorem test_hyp_paired_codes :
    (Cond.nv.code = Cond.v.code ^^^ 0b1000#4 ∧ Cond.v ≠ .r ∧ Cond.v ≠ .sa) ∧
      (Cond.gt.code = Cond.le.code ^^^ 0b1000#4 ∧ Cond.le ≠ .r ∧ Cond.le ≠ .sa) := by decide

/-- CompareThenBranchGoesByTheRelation: on reset the registers are equal, so BE's relation holds and BNE's fails. -/
theorem test_hyp_compare_relations :
    State.reset.readReg 2#5 = State.reset.readReg 1#5 ∧ ¬ State.reset.readReg 2#5 ≠ State.reset.readReg 1#5 := by decide

/-- MulLowWordIsSignFree: two destinations that differ, `r0` among them. -/
theorem test_hyp_mul_destinations : (8#5 : Reg) ≠ 9#5 ∧ (0#5 : Reg) ≠ 9#5 := by decide

/-! The load and store statements: the condition of every clause, at an address next to another clause's: misaligned,
invalid just past the data, in the last word of the program, in the last word of the data. -/

theorem test_hyp_misaligned_disp16 :
    0x2002#32 = effAddr (demo 0x1000 []) 6#5 ((1#15 ++ 0b0#1 : BitVec 16).signExtend 32) ∧ (0x2002#32).toNat % 4 ≠ 0 :=
  ⟨by decide, by decide⟩

theorem test_hyp_invalid_disp16 :
    0x2010#32 = effAddr (demo 0x1000 []) 6#5 ((8#15 ++ 0b0#1 : BitVec 16).signExtend 32) ∧ (0x2010#32).toNat % 4 = 0 ∧
      ∃ a ∈ wordAddrs 0x2010#32, (demo 0x1000 []).memValid a = false :=
  ⟨by decide, by decide, 0x2010#32, by decide, by decide⟩

theorem test_hyp_in_code_disp16 :
    0x100C#32 = effAddr (demo 0x1000 []) 1#5 ((6#15 ++ 0b0#1 : BitVec 16).signExtend 32) ∧ (0x100C#32).toNat % 4 = 0 ∧
      (∀ a ∈ wordAddrs 0x100C#32, (demo 0x1000 []).memValid a = true) ∧
      ∃ a ∈ wordAddrs 0x100C#32, (demo 0x1000 []).inCode a = true :=
  ⟨by decide, by decide, by intro a h; fin_cases h <;> decide, 0x100F#32, by decide, by decide⟩

theorem test_hyp_in_data_disp16 :
    0x200C#32 = effAddr (demo 0x1000 []) 6#5 ((6#15 ++ 0b0#1 : BitVec 16).signExtend 32) ∧ (0x200C#32).toNat % 4 = 0 ∧
      (∀ a ∈ wordAddrs 0x200C#32, (demo 0x1000 []).memValid a = true) ∧
      ∀ a ∈ wordAddrs 0x200C#32, (demo 0x1000 []).inCode a = false :=
  ⟨by decide, by decide, by intro a h; fin_cases h <;> decide, by intro a h; fin_cases h <;> decide⟩

theorem test_hyp_misaligned_disp23 :
    0x2002#32 = effAddr (demo 0x1000 []) 6#5 ((1#22 ++ 0b0#1 : BitVec 23).signExtend 32) ∧ (0x2002#32).toNat % 4 ≠ 0 :=
  ⟨by decide, by decide⟩

theorem test_hyp_invalid_disp23 :
    0x2010#32 = effAddr (demo 0x1000 []) 6#5 ((8#22 ++ 0b0#1 : BitVec 23).signExtend 32) ∧ (0x2010#32).toNat % 4 = 0 ∧
      ∃ a ∈ wordAddrs 0x2010#32, (demo 0x1000 []).memValid a = false :=
  ⟨by decide, by decide, 0x2010#32, by decide, by decide⟩

theorem test_hyp_in_code_disp23 :
    0x100C#32 = effAddr (demo 0x1000 []) 1#5 ((6#22 ++ 0b0#1 : BitVec 23).signExtend 32) ∧ (0x100C#32).toNat % 4 = 0 ∧
      (∀ a ∈ wordAddrs 0x100C#32, (demo 0x1000 []).memValid a = true) ∧
      ∃ a ∈ wordAddrs 0x100C#32, (demo 0x1000 []).inCode a = true :=
  ⟨by decide, by decide, by intro a h; fin_cases h <;> decide, 0x100F#32, by decide, by decide⟩

theorem test_hyp_in_data_disp23 :
    0x200C#32 = effAddr (demo 0x1000 []) 6#5 ((6#22 ++ 0b0#1 : BitVec 23).signExtend 32) ∧ (0x200C#32).toNat % 4 = 0 ∧
      (∀ a ∈ wordAddrs 0x200C#32, (demo 0x1000 []).memValid a = true) ∧
      ∀ a ∈ wordAddrs 0x200C#32, (demo 0x1000 []).inCode a = false :=
  ⟨by decide, by decide, by intro a h; fin_cases h <;> decide, by intro a h; fin_cases h <;> decide⟩

/-- LoadSeesTheLatestStore: a store of either form to `4[r6]`, after which the address of either loading form is the
same: all four pairs. -/
theorem test_hyp_store_then_load :
    ∀ store ∈ [Instr.stwDisp16 7#5 2#15 6#5, .stwDisp23 7#5 2#22 6#5], ∃ t,
      (store, 0x2004#32) ∈
        [(.stwDisp16 7#5 2#15 6#5, effAddr (demo 0x1000 []) 6#5 (disp16Value 2#15)),
         (.stwDisp23 7#5 2#22 6#5, effAddr (demo 0x1000 []) 6#5 (disp23Value 2#22))] ∧
      exec store (demo 0x1000 []) = .next t ∧
      ∀ load ∈ [Instr.ldwDisp16 2#15 6#5 8#5, .ldwDisp23 2#22 6#5 8#5],
        (load, 0x2004#32) ∈
          [(.ldwDisp16 2#15 6#5 8#5, effAddr t 6#5 (disp16Value 2#15)),
           (.ldwDisp23 2#22 6#5 8#5, effAddr t 6#5 (disp23Value 2#22))] := by
  intro store h
  fin_cases h
  · exact ⟨_, by decide, rfl, by decide⟩
  · exact ⟨_, by decide, rfl, by decide⟩

/-- DecodeOfEncodeIsTheInstruction: a JMP where its patterns are admitted, and an instruction that is none. -/
theorem test_hyp_encode :
    (Instr.wf (.jmpDisp32 0x10#31 6#5) = true ∧ (isJmp (.jmpDisp32 0x10#31 6#5) = true → true = true)) ∧
      Instr.wf (.movReg 6#5 7#5) = true ∧ (isJmp (.movReg 6#5 7#5) = true → false = true) := by decide

/-- OnlyEncodingsDecode: the bytes of `MOV r6, r7` with one byte after them. -/
theorem test_hyp_decode : decodeBytes false [0x06#8, 0x38#8, 0xFF#8] = .insn (.movReg 6#5 7#5) [0xFF#8] := by decide

/-- LengthRuleGivesTheLength, JmpParameterRefusesOnlyJmp: instructions of 2, 4 and 6 bytes, the second and third with
a first halfword that `hw1` alone tells apart. -/
theorem test_hyp_length :
    decode false 0x3806#16 0#16 0#16 = some (.movReg 6#5 7#5) ∧
      decode false 0x079F#16 0xFFFE#16 0#16 = some (.jrDisp22 0xFFFFF#21) ∧
      decode false 0x079F#16 0xFFE9#16 0xFFFF#16 = some (.ldwDisp23 0x3FFFFF#22 31#5 31#5) := by decide

/-- StepRunsTheFetchedInstruction: `MOV r6, r7` at the pc. -/
theorem test_hyp_fetched :
    (demo 0x1000 [0x06, 0x38]).fault = none ∧
      fetch (demo 0x1000 [0x06, 0x38]) = .ok (0x3806#16, 0#16, 0#16) ∧
      decode (demo 0x1000 [0x06, 0x38]).params.jmpEncodingAdmitted 0x3806#16 0#16 0#16 = some (.movReg 6#5 7#5) :=
  ⟨by decide, rfl, by decide⟩

/-- StepRunsTheInstructionWhoseBytesLieAtPc: `MOV r6, r7` in the last halfword of the address space. -/
theorem test_hyp_bytes_at_pc :
    (demoTop 0xFFFFFFFE [0x06, 0x38]).fault = none ∧ Instr.wf (.movReg 6#5 7#5) = true ∧
      (isJmp (.movReg 6#5 7#5) = true → (demoTop 0xFFFFFFFE [0x06, 0x38]).params.jmpEncodingAdmitted = true) ∧
      (demoTop 0xFFFFFFFE [0x06, 0x38]).Fetchable (Instr.len (.movReg 6#5 7#5) / 2) ∧
      (demoTop 0xFFFFFFFE [0x06, 0x38]).HoldsBytes (demoTop 0xFFFFFFFE [0x06, 0x38]).pc
        (encodeBytes (.movReg 6#5 7#5)) := by
  refine ⟨by decide, by decide, by decide, ⟨by decide, by decide⟩, fun k b h => ?_⟩
  match k with
  | 0 => cases h; decide
  | 1 => cases h; decide
  | k + 2 => cases h

/-- FetchFaultNamesTheHalfword, first clause: no program at the pc; the pc one byte below the image. -/
theorem test_hyp_fetch_first_halfword :
    (demo 0xFFF []).fault = none ∧
      ((demo 0xFFF []).fetchable 0xFFF#32 && (demo 0xFFF []).fetchable (0xFFF#32 + 1#32)) = false := by decide

/-- Second clause: the first halfword of JR in the last two bytes of the address space. -/
theorem test_hyp_fetch_second_halfword_at_top :
    let s := demoTop 0xFFFFFFFE [0x80, 0x07]
    s.fault = none ∧ (s.fetchable s.pc && s.fetchable (s.pc + 1#32)) = true ∧
      0x0780#16 = halfOfBytes (s.readByte s.pc) (s.readByte (s.pc + 1#32)) ∧ needHw1 0x0780#16 = true ∧
      4294967294 ≤ s.pc.toNat :=
  ⟨by decide, by decide, by decide, by decide, by decide⟩

/-- The same in the last two bytes of the program image. -/
theorem test_hyp_fetch_second_halfword :
    let s := demo 0x100E [0x80, 0x07]
    s.fault = none ∧ (s.fetchable s.pc && s.fetchable (s.pc + 1#32)) = true ∧
      0x0780#16 = halfOfBytes (s.readByte s.pc) (s.readByte (s.pc + 1#32)) ∧ needHw1 0x0780#16 = true ∧
      s.pc.toNat < 4294967294 ∧ (s.fetchable (s.pc + 2#32) && s.fetchable (s.pc + 3#32)) = false :=
  ⟨by decide, by decide, by decide, by decide, by decide, by decide⟩

/-- Third clause: the first two halfwords of `MOV imm32` in the last four bytes of the address space. -/
theorem test_hyp_fetch_third_halfword_at_top :
    let s := demoTop 0xFFFFFFFC [0x27, 0x06, 0x78, 0x56]
    s.fault = none ∧ (s.fetchable s.pc && s.fetchable (s.pc + 1#32)) = true ∧
      0x0627#16 = halfOfBytes (s.readByte s.pc) (s.readByte (s.pc + 1#32)) ∧ needHw1 0x0627#16 = true ∧
      s.pc.toNat < 4294967294 ∧ (s.fetchable (s.pc + 2#32) && s.fetchable (s.pc + 3#32)) = true ∧
      0x5678#16 = halfOfBytes (s.readByte (s.pc + 2#32)) (s.readByte (s.pc + 3#32)) ∧
      needHw2 0x0627#16 0x5678#16 = true ∧ 4294967292 ≤ s.pc.toNat :=
  ⟨by decide, by decide, by decide, by decide, by decide, by decide, by decide, by decide, by decide⟩

/-- The same in the last four bytes of the program image. -/
theorem test_hyp_fetch_third_halfword :
    let s := demo 0x100C [0x27, 0x06, 0x78, 0x56]
    s.fault = none ∧ (s.fetchable s.pc && s.fetchable (s.pc + 1#32)) = true ∧
      0x0627#16 = halfOfBytes (s.readByte s.pc) (s.readByte (s.pc + 1#32)) ∧ needHw1 0x0627#16 = true ∧
      s.pc.toNat < 4294967294 ∧ (s.fetchable (s.pc + 2#32) && s.fetchable (s.pc + 3#32)) = true ∧
      0x5678#16 = halfOfBytes (s.readByte (s.pc + 2#32)) (s.readByte (s.pc + 3#32)) ∧
      needHw2 0x0627#16 0x5678#16 = true ∧ s.pc.toNat < 4294967292 ∧
      (s.fetchable (s.pc + 4#32) && s.fetchable (s.pc + 5#32)) = false :=
  ⟨by decide, by decide, by decide, by decide, by decide, by decide, by decide, by decide, by decide, by decide⟩

/-- ReservedEncodingFaults: `MOV 5, r0` at the pc. -/
theorem test_hyp_reserved :
    (demo 0x1000 [0x05, 0x02]).fault = none ∧
      fetch (demo 0x1000 [0x05, 0x02]) = .ok (0x0205#16, 0#16, 0#16) ∧
      decode (demo 0x1000 [0x05, 0x02]).params.jmpEncodingAdmitted 0x0205#16 0#16 0#16 = none :=
  ⟨by decide, rfl, by decide⟩

/-- FaultIsPreciseAndTerminal: a state about to fault, and one that has faulted. -/
theorem test_hyp_fault :
    ((demo 0xFFE []).fault = none ∧ step (demo 0xFFE []) = .fault (.fetchFault 0xFFE#32)) ∧
      { demo 0xFFE [] with fault := some (.fetchFault 0xFFE#32) }.fault = some (.fetchFault 0xFFE#32) :=
  ⟨⟨by decide, rfl⟩, rfl⟩

/-- OnlyLoadsAndStoresFault: a well-formed load and a well-formed store that fault, in every way each can. -/
theorem test_hyp_own_faults :
    (Instr.wf (.ldwDisp16 1#15 6#5 8#5) = true ∧
      exec (.ldwDisp16 1#15 6#5 8#5) (demo 0x1000 []) = .fault (.misalignedAccess 0x2002#32)) ∧
    (Instr.wf (.ldwDisp23 8#22 6#5 8#5) = true ∧
      exec (.ldwDisp23 8#22 6#5 8#5) (demo 0x1000 []) = .fault (.accessFault 0x2010#32)) ∧
    (Instr.wf (.stwDisp16 7#5 6#15 1#5) = true ∧
      exec (.stwDisp16 7#5 6#15 1#5) (demo 0x1000 []) = .fault (.storeToCode 0x100C#32)) :=
  ⟨⟨by decide, rfl⟩, ⟨by decide, rfl⟩, ⟨by decide, rfl⟩⟩

/-- OnlyDestinationRegistersChange, OnlyAddSubCmpWriteFlags, NonBranchesAdvanceByTheirLength and the first clause of
OnlyStoresChangeMemory: a load that completes, stores nothing, writes no flag and is no branch. -/
theorem test_hyp_load_completes :
    (∃ t, exec (.ldwDisp16 6#15 6#5 8#5) (demo 0x1000 []) = .next t) ∧
      storeAddr (demo 0x1000 []) (.ldwDisp16 6#15 6#5 8#5) = none ∧
      writesFlags (.ldwDisp16 6#15 6#5 8#5) = false ∧ isBranch (.ldwDisp16 6#15 6#5 8#5) = false :=
  ⟨⟨_, rfl⟩, by decide, by decide, by decide⟩

/-- OnlyStoresChangeMemory, second clause: a store that completes, to the last word of the data. -/
theorem test_hyp_store_completes :
    (∃ t, exec (.stwDisp23 7#5 6#22 6#5) (demo 0x1000 []) = .next t) ∧
      storeAddr (demo 0x1000 []) (.stwDisp23 7#5 6#22 6#5) = some 0x200C#32 := ⟨⟨_, rfl⟩, by decide⟩

/-- BranchesChangeOnlyThePc. -/
theorem test_hyp_branch : isBranch (.bgt 0x80#8) = true ∧ isBranch (.jmpReg 31#5) = true := by decide

/-- EndedRunStaysWhereItIs: each of the three ends of a run. -/
theorem test_hyp_ended :
    ∀ s ∈ [demo 0x1000 [0x85, 0x05], demo 0x1000 [0x80, 0x07], demo 0x1000 [0xE0, 0x02]], s.ended = true := by decide

/-- LaunchMeetsTheInvariant. -/
theorem test_hyp_launch : demoLaunch.Wf := by decide

/-- StepKeepsTheInvariant, SatIsNeverWrittenAndReadByBsaAlone, ProgramImageIsImmutableAlongRuns: a state that meets the
invariant, has a next state, and holds a byte of the program. -/
theorem test_hyp_invariant_and_step :
    (demo 0x1000 [0x06, 0x38]).Inv ∧ (∃ t, step (demo 0x1000 [0x06, 0x38]) = .next t) ∧
      (∃ t, Host.Core.run Sys2Proof.core 1 (demo 0x1000 [0x06, 0x38]) = .next t) ∧ Cond.v ≠ .sa ∧
      (demo 0x1000 [0x06, 0x38]).inCode 0x1001#32 = true ∧
      fetchHalf (demo 0x1000 [0x06, 0x38]) 0x1000#32 = .ok 0x3806#16 :=
  ⟨by decide, ⟨_, rfl⟩, ⟨_, rfl⟩, by decide, by decide, rfl⟩


end Sys2Proof.Tests
end

section
/-! What instructions and runs do to the flags of PSW (R34, R35), and the two obligations about them. -/

namespace Sys2Proof.Machine

/-- An instruction that completes either is one of those that write flags, and then replaces CY, OV, S and Z and keeps
SAT, or leaves the whole PSW as it was. -/
theorem exec_next_psw {i : Instr} {s t : State} (h : exec i s = .next t) :
    (writesFlags i = true ∧
      ∃ f : AluResult, t.psw = { cy := f.cy, ov := f.ov, s := f.s, z := f.z, sat := s.psw.sat }) ∨
    t.psw = s.psw := by
  rcases exec_next h with ⟨_, _, rfl⟩ | ⟨f, _, hf, _, _, rfl⟩ | ⟨_, _, f, _, hf, _, _, rfl⟩ |
    ⟨_, _, _, _, _, rfl⟩ | ⟨_, _, _, _, _, _, _, rfl⟩ | ⟨_, _, _, _, _, _, rfl⟩
  case inl => right; simp
  case inr.inl => exact .inl ⟨hf, f, by simp⟩
  case inr.inr.inl => exact .inl ⟨hf, f, by simp⟩
  all_goals right; simp

/-- No instruction writes SAT. -/
theorem exec_next_sat {i : Instr} {s t : State} (h : exec i s = .next t) : t.psw.sat = s.psw.sat := by
  rcases exec_next_psw h with ⟨_, _, hpsw⟩ | hpsw <;> rw [hpsw]

/-- No step writes SAT. -/
theorem step_next_sat {s t : State} (h : step s = .next t) : t.psw.sat = s.psw.sat := by
  obtain ⟨_, _, hexec⟩ := step_next h
  exact exec_next_sat hexec

/-- SAT is the same at a run's two ends. -/
theorem run_next_sat (k : Nat) (s t : State) (h : Host.Core.run Sys2Proof.core k s = .next t) :
    t.psw.sat = s.psw.sat :=
  run_induction (P := fun s t => t.psw.sat = s.psw.sat) (fun _ => rfl)
    (fun _ _ _ hstep hrest => hrest.trans (step_next_sat hstep)) k s t h

/-- A condition other than BSA's does not look at SAT. -/
theorem condHolds_setSat {c : Cond} (hc : c ≠ .sa) (p : Psw) (b : Bool) :
    condHolds c { p with sat := b } = condHolds c p := by
  cases c with
  | sa => exact absurd rfl hc
  | _ => rfl

/-- Settles O49: what `exec_next_psw` leaves of an instruction that writes no flags. -/
theorem onlyAddSubCmpWriteFlags : Obligations.OnlyAddSubCmpWriteFlags := by
  intro i s t h hi
  rcases exec_next_psw h with ⟨hw, _⟩ | hpsw
  · rw [hi] at hw
    cases hw
  · exact hpsw

/-- Settles O50: no step writes SAT, so no run does; and the conditions are read off one by one. -/
theorem satIsNeverWrittenAndReadByBsaAlone : Obligations.SatIsNeverWrittenAndReadByBsaAlone :=
  ⟨run_next_sat, fun _ p b hc => condHolds_setSat hc p b, fun _ => rfl⟩

end Sys2Proof.Machine
end

section
/-! What the flag computations of ADD, SUB and CMP give (R100, R101), and the two obligations about them. -/

namespace Sys2Proof.Machine

/-! ### AddFlags (R100) -/

/-- The exact sum of two words fits in 33 bits. -/
theorem sum33_toNat (a b : Word) : (sum33 a b).toNat = a.toNat + b.toNat := by
  have ha := a.isLt
  have hb := b.isLt
  simp only [sum33, BitVec.toNat_add, BitVec.toNat_setWidth]
  omega

/-- The low 32 bits of the exact sum are the wrapped sum. -/
theorem sum33_low (a b : Word) : (sum33 a b).extractLsb' 0 32 = a + b := by
  apply BitVec.eq_of_toNat_eq
  simp [sum33_toNat]

@[simp] theorem addFlags_r (a b : Word) : (addFlags a b).r = a + b := sum33_low a b

@[simp] theorem addFlags_s (a b : Word) : (addFlags a b).s = (a + b).msb := by
  rw [addFlags, sum33_low]

@[simp] theorem addFlags_z (a b : Word) : (addFlags a b).z = (a + b == 0#32) := by
  rw [addFlags, sum33_low]

theorem addFlags_ov (a b : Word) : (addFlags a b).ov = (a.msb == b.msb && (a + b).msb != a.msb) := by
  rw [addFlags, sum33_low]

/-- CY is bit 32 of the exact sum, which is less than `2^33`. -/
theorem addFlags_cy_iff (a b : Word) : (addFlags a b).cy = true ↔ 4294967296 ≤ a.toNat + b.toNat := by
  have htop : (sum33 a b).getLsbD 32 = (sum33 a b).msb := BitVec.msb_eq_getLsbD_last _ |>.symm
  rw [addFlags, htop, BitVec.msb_eq_decide, sum33_toNat]
  simp

/-- The sign rule for OV is the library's signed overflow of an addition. -/
theorem addFlags_ov_eq_saddOverflow (a b : Word) : (addFlags a b).ov = a.saddOverflow b := by
  rw [addFlags_ov, BitVec.saddOverflow_eq, bne]

/-- OV says that the signed sum is not a 32-bit number. -/
theorem addFlags_ov_iff_range (a b : Word) :
    (addFlags a b).ov = true ↔ a.toInt + b.toInt < -2147483648 ∨ 2147483647 < a.toInt + b.toInt := by
  rw [addFlags_ov_eq_saddOverflow]
  simp only [BitVec.saddOverflow, Bool.or_eq_true, decide_eq_true_eq]
  omega

/-- Settles O1, clause by clause. -/
theorem addFlagsCarryOverflowSignZero : Obligations.AddFlagsCarryOverflowSignZero := fun a b =>
  ⟨addFlags_r a b, addFlags_cy_iff a b, by simp [addFlags_ov], addFlags_ov_iff_range a b, addFlags_s a b, by simp⟩

/-! ### SubFlags (R101) -/

/-- The sign rule for OV is the library's signed overflow of a subtraction. -/
theorem subFlags_ov_eq_ssubOverflow (a b : Word) : (subFlags a b).ov = a.ssubOverflow b := by
  rw [BitVec.ssubOverflow_eq, subFlags]
  cases a.msb <;> cases b.msb <;> simp

/-- OV says that the signed difference is not a 32-bit number. -/
theorem subFlags_ov_iff_range (a b : Word) :
    (subFlags a b).ov = true ↔ a.toInt - b.toInt < -2147483648 ∨ 2147483647 < a.toInt - b.toInt := by
  rw [subFlags_ov_eq_ssubOverflow]
  simp only [BitVec.ssubOverflow, Bool.or_eq_true, decide_eq_true_eq]
  omega

/-- Settles O2: all but the range reading of OV is the definition of `subFlags`. -/
theorem subFlagsBorrowOverflowSignZero : Obligations.SubFlagsBorrowOverflowSignZero := fun a b =>
  ⟨rfl, by simp [subFlags], by simp [subFlags], subFlags_ov_iff_range a b, rfl, by simp [subFlags]⟩

end Sys2Proof.Machine
end

section
/-! The meanings of ADD, CMP, MOV and SUB in all forms of Formats I and II (R102 to R107, R109): how their words decode,
what the three shared shapes of next state hold, and the seven obligations about them. -/

namespace Sys2Proof

/-! ### Decoding Formats I and II (R80): the six opcode bits alone choose the row, whatever the other operands are -/

theorem decode_formatI_addReg (reg1 reg2 : Reg) (j : Bool) (hw1 hw2 : Half) :
    decode j (formatI reg2 0b001110#6 reg1) hw1 hw2 = some (.addReg reg1 reg2) := by
  simp [decode]

theorem decode_formatI_addImm5 (imm5 : BitVec 5) (reg2 : Reg) (j : Bool) (hw1 hw2 : Half) :
    decode j (formatI reg2 0b010010#6 imm5) hw1 hw2 = some (.addImm5 imm5 reg2) := by
  simp [decode]

theorem decode_formatI_cmpReg (reg1 reg2 : Reg) (j : Bool) (hw1 hw2 : Half) :
    decode j (formatI reg2 0b001111#6 reg1) hw1 hw2 = some (.cmpReg reg1 reg2) := by
  simp [decode]

theorem decode_formatI_cmpImm5 (imm5 : BitVec 5) (reg2 : Reg) (j : Bool) (hw1 hw2 : Half) :
    decode j (formatI reg2 0b010011#6 imm5) hw1 hw2 = some (.cmpImm5 imm5 reg2) := by
  simp [decode]

/-- The short MOV of a register, reserved for `reg2 = r0` (R83). -/
theorem decode_formatI_movReg (reg1 reg2 : Reg) (j : Bool) (hw1 hw2 : Half) :
    decode j (formatI reg2 0b000000#6 reg1) hw1 hw2 = if reg2 = 0#5 then none else some (.movReg reg1 reg2) := by
  simp [decode]

/-- The short MOV of an immediate, reserved for `reg2 = r0` (R83). -/
theorem decode_formatI_movImm5 (imm5 : BitVec 5) (reg2 : Reg) (j : Bool) (hw1 hw2 : Half) :
    decode j (formatI reg2 0b010000#6 imm5) hw1 hw2 = if reg2 = 0#5 then none else some (.movImm5 imm5 reg2) := by
  simp [decode]

theorem decode_formatI_sub (reg1 reg2 : Reg) (j : Bool) (hw1 hw2 : Half) :
    decode j (formatI reg2 0b001101#6 reg1) hw1 hw2 = some (.sub reg1 reg2) := by
  simp [decode]

end Sys2Proof

namespace Sys2Proof.Machine

/-! ### The three shapes of next state -/

/-- Writing a register leaves every other one. -/
theorem regsSameBut_writeReg (s : State) (r : Reg) (v : Word) : RegsSameBut [r] s (s.writeReg r v) :=
  fun _ hq => State.readReg_writeReg_ne s (List.ne_of_not_mem_cons hq) v

/-- A register and the flags written, then the pc advanced: the end of ADD and SUB. -/
theorem effects_of_writeReg_setAluFlags {s t : State} {r : Reg} {f : AluResult} {v len : Word} (hv : f.r = v)
    (ht : t = ((s.writeReg r f.r).setAluFlags f).advance len) :
    t.readReg r = (if r = 0#5 then 0#32 else v) ∧ FlagsFrom f s t ∧
      t.pc = s.pc + len ∧ RegsSameBut [r] s t ∧ MemSame s t ∧ RestSame s t := by
  subst hv ht
  refine ⟨?_, ?_, ?_, ?_, ?_, ?_⟩
  · simp [State.readReg_writeReg]
  · simp [FlagsFrom]
  · simp
  · simpa [RegsSameBut] using regsSameBut_writeReg s r f.r
  · simp [MemSame]
  · simp [RestSame]

/-- The flags written, then the pc advanced: the end of CMP. -/
theorem effects_of_setAluFlags {s t : State} {f : AluResult} {len : Word} (ht : t = (s.setAluFlags f).advance len) :
    FlagsFrom f s t ∧ t.pc = s.pc + len ∧ RegsSameBut [] s t ∧ MemSame s t ∧ RestSame s t := by
  subst ht
  refine ⟨?_, ?_, ?_, ?_, ?_⟩
  · simp [FlagsFrom]
  · simp
  · simp [RegsSameBut]
  · simp [MemSame]
  · simp [RestSame]

/-- A register other than `r0` written, then the pc advanced: the end of the short MOVs. -/
theorem effects_of_writeReg {s t : State} {r : Reg} {v len : Word} (hr : r ≠ 0#5)
    (ht : t = (s.writeReg r v).advance len) :
    t.readReg r = v ∧ t.pc = s.pc + len ∧ t.psw = s.psw ∧ RegsSameBut [r] s t ∧ MemSame s t ∧ RestSame s t := by
  subst ht
  refine ⟨?_, ?_, ?_, ?_, ?_, ?_⟩
  · simpa using State.readReg_writeReg_self s hr v
  · simp
  · simp
  · simpa [RegsSameBut] using regsSameBut_writeReg s r v
  · simp [MemSame]
  · simp [RestSame]

/-! ### ADD and SUB (R102, R103, R109) -/

/-- Settles O4: `execAddReg` writes `reg2` and the flags from one `addFlags`. -/
theorem addRegSumFlagsAndFrame : Obligations.AddRegSumFlagsAndFrame := fun reg1 reg2 _ =>
  ⟨decode_formatI_addReg reg1 reg2, _, rfl, effects_of_writeReg_setAluFlags (addFlags_r _ _) rfl⟩

/-- Settles O5: as O4, with the immediate in the place of `reg1`. -/
theorem addImm5SumFlagsAndFrame : Obligations.AddImm5SumFlagsAndFrame := fun imm5 reg2 _ =>
  ⟨decode_formatI_addImm5 imm5 reg2, _, rfl, effects_of_writeReg_setAluFlags (addFlags_r _ _) rfl⟩

/-- Settles O11: as O4, from one `subFlags`, whose result is the difference by definition. -/
theorem subDifferenceFlagsAndFrame : Obligations.SubDifferenceFlagsAndFrame := fun reg1 reg2 _ =>
  ⟨decode_formatI_sub reg1 reg2, _, rfl, effects_of_writeReg_setAluFlags rfl rfl⟩

/-! ### CMP (R104, R105) -/

/-- Settles O6: `execCmpReg` writes the flags of one `subFlags` and nothing else. -/
theorem cmpRegFlagsAndFrame : Obligations.CmpRegFlagsAndFrame := fun reg1 reg2 _ =>
  ⟨decode_formatI_cmpReg reg1 reg2, _, rfl, effects_of_setAluFlags rfl⟩

/-- Settles O7: as O6, with the immediate in the place of `reg1`. -/
theorem cmpImm5FlagsAndFrame : Obligations.CmpImm5FlagsAndFrame := fun imm5 reg2 _ =>
  ⟨decode_formatI_cmpImm5 imm5 reg2, _, rfl, effects_of_setAluFlags rfl⟩

/-! ### The short MOVs (R106, R107) -/

/-- Settles O8: `execMovReg` and the decoder take the same branch on `reg2 = r0`. -/
theorem movRegCopiesAndFrame : Obligations.MovRegCopiesAndFrame := fun reg1 reg2 _ =>
  ⟨fun h =>
    ⟨fun j hw1 hw2 => (decode_formatI_movReg reg1 reg2 j hw1 hw2).trans (if_neg h),
      _, if_neg h, effects_of_writeReg h rfl⟩,
   fun h => ⟨fun j hw1 hw2 => (decode_formatI_movReg reg1 reg2 j hw1 hw2).trans (if_pos h), if_pos h⟩⟩

/-- Settles O9: `execMovImm5` and the decoder take the same branch on `reg2 = r0`. -/
theorem movImm5WritesAndFrame : Obligations.MovImm5WritesAndFrame := fun imm5 reg2 _ =>
  ⟨fun h =>
    ⟨fun j hw1 hw2 => (decode_formatI_movImm5 imm5 reg2 j hw1 hw2).trans (if_neg h),
      _, if_neg h, effects_of_writeReg h rfl⟩,
   fun h => ⟨fun j hw1 hw2 => (decode_formatI_movImm5 imm5 reg2 j hw1 hw2).trans (if_pos h), if_pos h⟩⟩

end Sys2Proof.Machine
end

section
/-! The conditional branches and JR (R120 to R140): how their words decode, the one next state the branches share, and
the five obligations about them. -/

namespace Sys2Proof

/-! ### Decoding Formats III, V and VI (R80) -/

/-- The condition code and the displacement of a Format III word are those it was made of; nothing else is looked at. -/
theorem decode_formatIII (c : Cond) (d : BitVec 8) (j : Bool) (hw1 hw2 : Half) :
    decode j (formatIII d c.code) hw1 hw2 = some (bcond c d) := by
  simp [decode]

/-- Both opcodes of Format V belong to no row before JR's, and bit 16 keeps Format XIV apart (R84). -/
theorem decode_jrDisp22 (d : BitVec 21) (j : Bool) (hw2 : Half) :
    decode j (0b0000011110#10 ++ d.extractLsb' 15 6) (d.extractLsb' 0 15 ++ 0b0#1) hw2 = some (.jrDisp22 d) := by
  obtain ⟨htop5, hop5, hlow6, hop6⟩ := formatV_fields (d.extractLsb' 15 6)
  have hdisp : disp22Bits (0b0000011110#10 ++ d.extractLsb' 15 6) (d.extractLsb' 0 15 ++ 0b0#1) = d := by
    rw [disp22Bits, hlow6, top15_append, disp22_join]
  rcases hop6 with hop6 | hop6 <;> simp [decode, op4_eq, htop5, hop5, hop6, hdisp]

/-- The first halfword of JR(2) as a Format I word, whose fields are known. -/
theorem jrDisp32_hw0 : 0b0000001011100000#16 = formatI 0b00000#5 0b010111#6 0b00000#5 := by decide

theorem decode_jrDisp32 (d : BitVec 31) (j : Bool) :
    decode j 0b0000001011100000#16 (d.extractLsb' 0 15 ++ 0b0#1) (d.extractLsb' 15 16) = some (.jrDisp32 d) := by
  have hdisp : disp32Bits (d.extractLsb' 0 15 ++ 0b0#1) (d.extractLsb' 15 16) = d := by
    rw [disp32Bits, top15_append, disp32_join]
  rw [jrDisp32_hw0]
  simp [decode, hdisp]

end Sys2Proof

namespace Sys2Proof.Machine

/-! ### The sixteen conditional branches -/

/-- The meanings of the sixteen branches differ in the condition alone (R120). -/
theorem exec_bcond (c : Cond) (d : BitVec 8) (s : State) :
    exec (bcond c d) s = branchIf (condHolds c s.psw) (disp9Value d) s := by
  cases c <;> rfl

/-- A branch goes by any predicate of the flags that says when its condition holds. -/
theorem branchesWhen_of_condHolds_iff (c : Cond) {taken : Psw → Prop} (h : ∀ p, condHolds c p = true ↔ taken p) :
    BranchesWhen (bcond c) c.code taken := by
  intro d s
  refine ⟨decode_formatIII c d, fun htaken => ?_, fun hnot => ?_⟩
  · rw [exec_bcond, branchIf_eq, if_pos ((h s.psw).mpr htaken), disp9Value]
  · rw [exec_bcond, branchIf_eq, if_neg (mt (h s.psw).mp hnot)]

/-- Settles O12: the predicate is `condHolds` itself. -/
theorem bcondBranchesWhenConditionHolds : Obligations.BcondBranchesWhenConditionHolds := fun c =>
  branchesWhen_of_condHolds_iff c fun _ => Iff.rfl

/-- Settles O13: a condition on one flag is that flag or its negation. -/
theorem oneFlagBranchesFollowTheTable : Obligations.OneFlagBranchesFollowTheTable :=
  ⟨branchesWhen_of_condHolds_iff .v fun _ => Iff.rfl,
   branchesWhen_of_condHolds_iff .l fun _ => Iff.rfl,
   branchesWhen_of_condHolds_iff .e fun _ => Iff.rfl,
   branchesWhen_of_condHolds_iff .n fun _ => Iff.rfl,
   branchesWhen_of_condHolds_iff .r fun _ => iff_true_intro rfl,
   branchesWhen_of_condHolds_iff .nv fun p => iff_of_eq (Bool.not_eq_true' p.ov),
   branchesWhen_of_condHolds_iff .nl fun p => iff_of_eq (Bool.not_eq_true' p.cy),
   branchesWhen_of_condHolds_iff .ne fun p => iff_of_eq (Bool.not_eq_true' p.z),
   branchesWhen_of_condHolds_iff .p fun p => iff_of_eq (Bool.not_eq_true' p.s),
   branchesWhen_of_condHolds_iff .sa fun _ => Iff.rfl⟩

/-- Settles O14: the Boolean formula of each condition read as a proposition about its flags. -/
theorem compoundBranchesFollowTheTable : Obligations.CompoundBranchesFollowTheTable :=
  ⟨branchesWhen_of_condHolds_iff .nh fun _ => by simp [condHolds],
   branchesWhen_of_condHolds_iff .lt fun _ => by simp [condHolds],
   branchesWhen_of_condHolds_iff .le fun _ => by simp [condHolds],
   branchesWhen_of_condHolds_iff .h fun _ => by simp [condHolds],
   branchesWhen_of_condHolds_iff .ge fun _ => by simp [condHolds],
   branchesWhen_of_condHolds_iff .gt fun _ => by simp [condHolds]⟩

/-! ### JR (R139, R140) -/

/-- Settles O17: the target is `execJrDisp22`'s own sum. -/
theorem jrDisp22JumpsRelative : Obligations.JrDisp22JumpsRelative := fun d _ => ⟨decode_jrDisp22 d, rfl⟩

/-- Settles O18: the target is `execJrDisp32`'s own sum. -/
theorem jrDisp32JumpsRelative : Obligations.JrDisp32JumpsRelative := fun d _ => ⟨decode_jrDisp32 d, rfl⟩

end Sys2Proof.Machine
end

section
/-! MUL with one register as both destinations (R152): the higher word of the product as an integer, and the obligation
about it. -/

namespace Sys2Proof.Machine

/-! ### The higher word of an exact product (R150) -/

/-- The higher word of an integer taken as 64 bits is its quotient by 2^32, rounded down. -/
theorem ofInt64_high_eq_ofInt_ediv (p : Int) :
    (BitVec.ofInt 64 p).extractLsb' 32 32 = BitVec.ofInt 32 (p / 4294967296) := by
  apply BitVec.eq_of_toNat_eq
  simp only [BitVec.extractLsb'_toNat, BitVec.toNat_ofInt, Nat.shiftRight_eq_div_pow]
  omega

/-- As a signed number, the higher word of a product is the exact quotient: a product of two words is at most 2^62 in
size, so nothing is lost. -/
theorem high_product_toInt (a b : Word) :
    ((BitVec.ofInt 64 (a.toInt * b.toInt)).extractLsb' 32 32).toInt = a.toInt * b.toInt / 4294967296 := by
  have hlo : -2 ^ 62 ≤ a.toInt * b.toInt := BitVec.le_toInt_mul_toInt
  have hhi : a.toInt * b.toInt ≤ 2 ^ 62 := BitVec.toInt_mul_toInt_le
  rw [ofInt64_high_eq_ofInt_ediv, BitVec.toInt_ofInt_eq_self] <;> omega

/-! ### One destination register (R152) -/

/-- The sign extension of `imm9` keeps its value (R73). -/
theorem imm9Value_toInt (imm9 : BitVec 9) : (imm9Value imm9).toInt = imm9.toInt :=
  BitVec.toInt_signExtend_of_le (by decide)

/-- The higher word is written last and stays. Neither word stays in `r0`, but then the first operand, read from there,
was 0 too (R21). -/
theorem multiplyInto_same_destination (b : Word) (r : Reg) (s : State) :
    ∃ t, multiplyInto (s.readReg r) b r r s = .next t ∧
      (t.readReg r).toInt = (s.readReg r).toInt * b.toInt / 4294967296 := by
  refine ⟨_, rfl, ?_⟩
  obtain ⟨-, -, -, -, -, hread⟩ := multiplyInto_next (rfl : multiplyInto (s.readReg r) b r r s = _)
  rw [hread, if_pos rfl]
  by_cases hr : r = 0#5
  · simp [hr]
  · rw [if_neg hr, high_product_toInt]

/-- Settles O23: both forms end in `multiplyInto` with the destination as first operand. -/
theorem mulSameDestinationKeepsHighWord : Obligations.MulSameDestinationKeepsHighWord := fun reg1 reg2 imm9 s =>
  ⟨multiplyInto_same_destination (s.readReg reg1) reg2 s,
   imm9Value_toInt imm9 ▸ multiplyInto_same_destination (imm9Value imm9) reg2 s⟩

end Sys2Proof.Machine
end

section
/-! The decoder as the inverse of the encoder (spec/30_encoding.md R60 to R85): every row read off its own encoding, the
one equivalence `decode_eq_some_iff`, and the length rule. -/

namespace Sys2Proof

/-! ### The rows that need a second halfword or a parameter (R80) -/

theorem decode_movImm32 (imm32 : BitVec 32) (reg1 : Reg) (j : Bool) :
    decode j (formatI 0b00000#5 0b110001#6 reg1) (imm32.extractLsb' 0 16) (imm32.extractLsb' 16 16)
      = some (.movImm32 imm32 reg1) := by
  simp [decode, imm32_join]

/-- JMP is decoded where its patterns are admitted (D20). -/
theorem decode_jmpReg (reg1 : Reg) (j : Bool) (hw1 hw2 : Half) :
    decode j (formatI 0b00000#5 0b000011#6 reg1) hw1 hw2 = if j then some (.jmpReg reg1) else none := by
  simp [decode]

/-- JMP is decoded where its patterns are admitted (D20). -/
theorem decode_jmpDisp32 (d : BitVec 31) (reg1 : Reg) (j : Bool) :
    decode j (formatI 0b00000#5 0b110111#6 reg1) (d.extractLsb' 0 15 ++ 0b0#1) (d.extractLsb' 15 16)
      = if j then some (.jmpDisp32 d reg1) else none := by
  have hdisp : disp32Bits (d.extractLsb' 0 15 ++ 0b0#1) (d.extractLsb' 15 16) = d := by
    rw [disp32Bits, top15_append, disp32_join]
  simp [decode, hdisp]

theorem decode_mulReg (reg1 reg2 reg3 : Reg) (j : Bool) (hw2 : Half) :
    decode j (formatI reg2 0b111111#6 reg1) (reg3 ++ 0b01000100000#11) hw2 = some (.mulReg reg1 reg2 reg3) := by
  have hsub : (reg3 ++ 0b01000100000#11 : Half).extractLsb' 0 11 = 0b01000100000#11 :=
    BitVec.extractLsb'_append_eq_right
  simp [decode, hsub]

/-- The low eleven bits of Format XII's second halfword, where `MUL imm9` differs from `MUL reg1` in bit 22 (R70). -/
theorem formatXII_low11_ne (reg3 : Reg) (k : BitVec 4) :
    (reg3 ++ 0b01001#5 ++ k ++ 0b00#2 : Half).extractLsb' 0 11 ≠ 0b01000100000#11 := by
  intro h
  have hbit := congrArg (BitVec.getLsbD · 6) h
  grind

theorem decode_mulImm9 (imm9 : BitVec 9) (reg2 reg3 : Reg) (j : Bool) (hw2 : Half) :
    decode j (formatI reg2 0b111111#6 (imm9.extractLsb' 0 5)) (reg3 ++ 0b01001#5 ++ imm9.extractLsb' 5 4 ++ 0b00#2) hw2
      = some (.mulImm9 imm9 reg2 reg3) := by
  obtain ⟨hreg3, hsub, himm, hlow⟩ := formatXII_fields reg3 0b01001#5 (imm9.extractLsb' 5 4) 0b00#2
  simp [decode, imm9Bits, imm9_join, hreg3, hsub, himm, hlow, formatXII_low11_ne]

theorem decode_stwDisp16 (reg2 : Reg) (d : BitVec 15) (reg1 : Reg) (j : Bool) (hw2 : Half) :
    decode j (formatI reg2 0b111011#6 reg1) (d ++ 0b1#1) hw2 = some (.stwDisp16 reg2 d reg1) := by
  simp [decode]

theorem decode_ldwDisp16 (d : BitVec 15) (reg1 reg2 : Reg) (j : Bool) (hw2 : Half) :
    decode j (formatI reg2 0b111001#6 reg1) (d ++ 0b1#1) hw2 = some (.ldwDisp16 d reg1 reg2) := by
  simp [decode]

theorem decode_stwDisp23 (reg3 : Reg) (d : BitVec 22) (reg1 : Reg) (j : Bool) :
    decode j (formatI 0b00000#5 0b111100#6 reg1) (reg3 ++ d.extractLsb' 0 6 ++ 0b01111#5) (d.extractLsb' 6 16)
      = some (.stwDisp23 reg3 d reg1) := by
  obtain ⟨hreg3, hdisp, hsub⟩ := formatXIV_fields reg3 (d.extractLsb' 0 6) 0b01111#5
  simp [decode, bit0_eq_low5, disp23Bits, disp23_join, hreg3, hdisp, hsub]

theorem decode_ldwDisp23 (d : BitVec 22) (reg1 reg3 : Reg) (j : Bool) :
    decode j (formatI 0b00000#5 0b111100#6 reg1) (reg3 ++ d.extractLsb' 0 6 ++ 0b01001#5) (d.extractLsb' 6 16)
      = some (.ldwDisp23 d reg1 reg3) := by
  obtain ⟨hreg3, hdisp, hsub⟩ := formatXIV_fields reg3 (d.extractLsb' 0 6) 0b01001#5
  simp [decode, bit0_eq_low5, disp23Bits, disp23_join, hreg3, hdisp, hsub]

/-! ### A halfword put together again from its fields -/

theorem formatI_of_op6 {hw : Half} {op : BitVec 6} (h : op6 hw = op) : formatI (top5 hw) op (low5 hw) = hw := by
  rw [← h, formatI_fields]

theorem formatI_of_top5_op6 {hw : Half} {r : BitVec 5} {op : BitVec 6} (htop : top5 hw = r) (hop : op6 hw = op) :
    formatI r op (low5 hw) = hw := by
  rw [← htop, ← hop, formatI_fields]

theorem formatIII_of_op4 {hw : Half} (h : op4 hw = 0b1011#4) : formatIII (disp9Bits hw) (condCode hw) = hw := by
  rw [formatIII, ← h]
  ext i hi; simp [disp9Bits, op4, condCode]; grind

/-- Format V's first halfword from its fixed fields and the higher bits of the displacement (R66). -/
theorem formatV_of_fields {hw0 : Half} (htop : top5 hw0 = 0b00000#5) (hop : op5 hw0 = 0b11110#5) (hw1 : Half) :
    (0b0000011110#10 ++ (disp22Bits hw0 hw1).extractLsb' 15 6 : Half) = hw0 := by
  have hfixed : (0b0000011110#10 : BitVec 10) = top5 hw0 ++ op5 hw0 := by rw [htop, hop]; rfl
  rw [hfixed]
  ext i hi; simp [top5, op5, disp22Bits]; grind

theorem top15_append_of_bit0 {hw : Half} {b : BitVec 1} (h : bit0 hw = b) : (top15 hw ++ b : Half) = hw := by
  rw [← h]
  ext i hi; simp [top15, bit0]; grind

theorem extract_imm32 (hw1 hw2 : Half) :
    (hw2 ++ hw1 : BitVec 32).extractLsb' 0 16 = hw1 ∧ (hw2 ++ hw1 : BitVec 32).extractLsb' 16 16 = hw2 :=
  ⟨BitVec.extractLsb'_append_eq_right, BitVec.extractLsb'_append_eq_left⟩

theorem extract_disp22Bits_low (hw0 hw1 : Half) : (disp22Bits hw0 hw1).extractLsb' 0 15 = top15 hw1 :=
  BitVec.extractLsb'_append_eq_right

theorem extract_disp32Bits_low (hw1 hw2 : Half) : (disp32Bits hw1 hw2).extractLsb' 0 15 = top15 hw1 :=
  BitVec.extractLsb'_append_eq_right

theorem extract_disp32Bits_high (hw1 hw2 : Half) : (disp32Bits hw1 hw2).extractLsb' 15 16 = hw2 :=
  BitVec.extractLsb'_append_eq_left

theorem extract_disp23Bits_high (hw1 hw2 : Half) : (disp23Bits hw1 hw2).extractLsb' 6 16 = hw2 :=
  BitVec.extractLsb'_append_eq_left

/-- The second and third halfwords of Format VI from the displacement read off them. -/
theorem disp32Halves_disp32Bits {hw1 : Half} (h : bit0 hw1 = 0b0#1) (hw2 : Half) :
    disp32Halves (disp32Bits hw1 hw2) = [hw1, hw2] := by
  rw [disp32Halves, extract_disp32Bits_low, extract_disp32Bits_high, top15_append_of_bit0 h]

/-- The second and third halfwords of Format XIV from the fields read off them. -/
theorem formatXIVHalves_disp23Bits {hw1 : Half} {sub : BitVec 5} (h : low5 hw1 = sub) (hw2 : Half) :
    formatXIVHalves (top5 hw1) (disp23Bits hw1 hw2) sub = [hw1, hw2] := by
  have hdisp : (disp23Bits hw1 hw2).extractLsb' 0 6 = hw1.extractLsb' 5 6 := BitVec.extractLsb'_append_eq_right
  have hfields : (top5 hw1 ++ hw1.extractLsb' 5 6 ++ low5 hw1 : Half) = hw1 := formatI_fields hw1
  rw [formatXIVHalves, hdisp, extract_disp23Bits_high, ← h, hfields]

/-- Format XI's second halfword (R69). -/
theorem formatXI_of_sub {hw1 : Half} {sub : BitVec 11} (h : hw1.extractLsb' 0 11 = sub) :
    (top5 hw1 ++ sub : Half) = hw1 := by
  rw [← h]
  ext i hi; simp [top5]; grind

/-- Format XII's second halfword (R70). -/
theorem formatXII_of_fields {hw1 : Half} {sub : BitVec 5} {z : BitVec 2} (hsub : hw1.extractLsb' 6 5 = sub)
    (hz : hw1.extractLsb' 0 2 = z) : (top5 hw1 ++ sub ++ hw1.extractLsb' 2 4 ++ z : Half) = hw1 := by
  rw [← hsub, ← hz]
  ext i hi; simp [top5]; grind

theorem encode_bcond (c : Cond) (d : BitVec 8) : encode (bcond c d) = [formatIII d c.code] := by
  cases c <;> rfl

theorem wf_bcond (c : Cond) (d : BitVec 8) : (bcond c d).wf = true := by
  cases c <;> rfl

end Sys2Proof

namespace Sys2Proof.Machine

theorem isJmp_bcond (c : Cond) (d : BitVec 8) : isJmp (bcond c d) = false := by
  cases c <;> rfl

/-! ### Decoding and encoding are inverse -/

/-- Halfwords that begin with a well-formed instruction's encoding decode to it. -/
theorem decode_of_encode_prefix {j : Bool} {i : Instr} {hw0 hw1 hw2 : Half} (hwf : i.wf = true)
    (hjmp : isJmp i = true → j = true) (henc : encode i <+: [hw0, hw1, hw2]) : decode j hw0 hw1 hw2 = some i := by
  cases i <;>
    simp only [encode, disp32Halves, formatXIVHalves, List.cons_prefix_cons, List.nil_prefix, and_true] at henc
  case addReg => rw [← henc, decode_formatI_addReg]
  case addImm5 => rw [← henc, decode_formatI_addImm5]
  case cmpReg => rw [← henc, decode_formatI_cmpReg]
  case cmpImm5 => rw [← henc, decode_formatI_cmpImm5]
  case movReg => rw [← henc, decode_formatI_movReg, if_neg (by simpa [Instr.wf] using hwf)]
  case movImm5 => rw [← henc, decode_formatI_movImm5, if_neg (by simpa [Instr.wf] using hwf)]
  case movImm32 => obtain ⟨rfl, rfl, rfl⟩ := henc; exact decode_movImm32 ..
  case sub => rw [← henc, decode_formatI_sub]
  case jrDisp22 => obtain ⟨rfl, rfl⟩ := henc; exact decode_jrDisp22 ..
  case jrDisp32 => obtain ⟨rfl, rfl, rfl⟩ := henc; exact decode_jrDisp32 ..
  case jmpReg => rw [← henc, decode_jmpReg, if_pos (hjmp rfl)]
  case jmpDisp32 => obtain ⟨rfl, rfl, rfl⟩ := henc; rw [decode_jmpDisp32, if_pos (hjmp rfl)]
  case mulReg => obtain ⟨rfl, rfl⟩ := henc; exact decode_mulReg ..
  case mulImm9 => obtain ⟨rfl, rfl⟩ := henc; exact decode_mulImm9 ..
  case stwDisp16 => obtain ⟨rfl, rfl⟩ := henc; exact decode_stwDisp16 ..
  case stwDisp23 => obtain ⟨rfl, rfl, rfl⟩ := henc; exact decode_stwDisp23 ..
  case ldwDisp16 => obtain ⟨rfl, rfl⟩ := henc; exact decode_ldwDisp16 ..
  case ldwDisp23 => obtain ⟨rfl, rfl, rfl⟩ := henc; exact decode_ldwDisp23 ..
  all_goals rw [← henc, decode_formatIII]; rfl

/-- Whatever decodes is a well-formed instruction whose encoding the halfwords begin with: each row of `decode` fixes
exactly the bits its encoding does. -/
theorem encode_prefix_of_decode {j : Bool} {i : Instr} {hw0 hw1 hw2 : Half} (h : decode j hw0 hw1 hw2 = some i) :
    i.wf = true ∧ (isJmp i = true → j = true) ∧ encode i <+: [hw0, hw1, hw2] := by
  simp only [decode, ite_eq_iff, Option.some.injEq] at h
  rcases h with ⟨hop, rfl⟩ | ⟨-, ⟨hop, rfl⟩ | ⟨-, ⟨hop, rfl⟩ | ⟨-, ⟨hop, rfl⟩ | ⟨-, ⟨hop, rfl⟩ | ⟨-, h⟩⟩⟩⟩⟩
  · simp [wf_bcond, isJmp_bcond, encode_bcond, formatIII_of_op4 hop]
  · simp [Instr.wf, isJmp, encode, formatI_of_op6 hop]
  · simp [Instr.wf, isJmp, encode, formatI_of_op6 hop]
  · simp [Instr.wf, isJmp, encode, formatI_of_op6 hop]
  · simp [Instr.wf, isJmp, encode, formatI_of_op6 hop]
  rcases h with ⟨hop, ⟨-, h⟩ | ⟨hreg2, rfl⟩⟩ | ⟨-, ⟨hop, ⟨-, h⟩ | ⟨hreg2, rfl⟩⟩ | ⟨-, h⟩⟩
  · cases h
  · simp [Instr.wf, isJmp, encode, formatI_of_op6 hop, hreg2]
  · cases h
  · simp [Instr.wf, isJmp, encode, formatI_of_op6 hop, hreg2]
  rcases h with ⟨⟨hop, htop⟩, rfl⟩ | ⟨-, ⟨hop, rfl⟩ | ⟨-, ⟨⟨htop, hop, hbit⟩, rfl⟩ | ⟨-, h⟩⟩⟩
  · simp [Instr.wf, isJmp, encode, formatI_of_top5_op6 htop hop, extract_imm32]
  · simp [Instr.wf, isJmp, encode, formatI_of_op6 hop]
  · simp [Instr.wf, isJmp, encode, formatV_of_fields htop hop, extract_disp22Bits_low, top15_append_of_bit0 hbit]
  rcases h with ⟨⟨htop, hop, hsub⟩, rfl⟩ | ⟨-, ⟨⟨htop, hop, hsub⟩, rfl⟩ | ⟨-, ⟨⟨hop, htop, hlow, hbit⟩, rfl⟩ | ⟨-, h⟩⟩⟩
  · simp [Instr.wf, isJmp, encode, formatI_of_top5_op6 htop hop, formatXIVHalves_disp23Bits hsub]
  · simp [Instr.wf, isJmp, encode, formatI_of_top5_op6 htop hop, formatXIVHalves_disp23Bits hsub]
  · have hhw0 := formatI_of_top5_op6 htop hop
    rw [hlow] at hhw0
    simp [Instr.wf, isJmp, encode, jrDisp32_hw0, hhw0, disp32Halves_disp32Bits hbit]
  rcases h with ⟨⟨hj, hop, htop⟩, rfl⟩ | ⟨-, ⟨⟨hj, hop, htop, hbit⟩, rfl⟩ | ⟨-, h⟩⟩
  · simp [Instr.wf, hj, encode, formatI_of_top5_op6 htop hop]
  · simp [Instr.wf, hj, encode, formatI_of_top5_op6 htop hop, disp32Halves_disp32Bits hbit]
  rcases h with ⟨⟨hop, hsub⟩, rfl⟩ | ⟨-, ⟨⟨hop, hsub, hz⟩, rfl⟩ | ⟨-, h⟩⟩
  · simp [Instr.wf, isJmp, encode, formatI_of_op6 hop, formatXI_of_sub hsub]
  · have hlow : (imm9Bits hw0 hw1).extractLsb' 0 5 = low5 hw0 := BitVec.extractLsb'_append_eq_right
    have hhigh : (imm9Bits hw0 hw1).extractLsb' 5 4 = hw1.extractLsb' 2 4 := BitVec.extractLsb'_append_eq_left
    simp [Instr.wf, isJmp, encode, hlow, hhigh, formatI_of_op6 hop, formatXII_of_fields hsub hz]
  rcases h with ⟨⟨hop, hbit⟩, rfl⟩ | ⟨-, ⟨⟨hop, hbit⟩, rfl⟩ | ⟨-, h⟩⟩
  · simp [Instr.wf, isJmp, encode, formatI_of_op6 hop, top15_append_of_bit0 hbit]
  · simp [Instr.wf, isJmp, encode, formatI_of_op6 hop, top15_append_of_bit0 hbit]
  · cases h

/-- The decoder is the inverse of the encoder, padding included. -/
theorem decode_eq_some_iff {j : Bool} {i : Instr} {hw0 hw1 hw2 : Half} :
    decode j hw0 hw1 hw2 = some i ↔
      i.wf = true ∧ (isJmp i = true → j = true) ∧ encode i <+: [hw0, hw1, hw2] :=
  ⟨encode_prefix_of_decode, fun ⟨hwf, hjmp, henc⟩ => decode_of_encode_prefix hwf hjmp henc⟩

/-! ### The length rule (R61) -/

/-- A Bcond is 2 bytes long: no longer form has its four opcode bits. -/
theorem needHw_of_bcond {hw0 : Half} (h : op4 hw0 = 0b1011#4) (hw1 : Half) :
    needHw1 hw0 = false ∧ needHw2 hw0 hw1 = false := by
  have hop : ∀ op : BitVec 6, op.extractLsb' 2 4 = 0b1011#4 →
      op ∉ [0b010111#6, 0b110001#6, 0b110111#6, 0b111001#6, 0b111011#6, 0b111111#6, 0b111100#6] ∧
        op.extractLsb' 1 5 ≠ 0b11110#5 := by decide
  have hop6 := hop _ (op4_eq hw0 ▸ h)
  simp only [List.mem_cons, List.not_mem_nil, or_false, not_or] at hop6
  simp [needHw1, needHw2, isFourByte, isSixByte, isJrGroup, isFormatXIV, op5_eq, hop6]

/-! The length rule on a Format I word looks at its three fields, and on Format XIV at the sub-opcode too. -/

theorem isSixByte_formatI (r2 : BitVec 5) (op : BitVec 6) (low : BitVec 5) :
    isSixByte (formatI r2 op low) =
      ((op == 0b010111#6 && r2 == 0b00000#5 && low == 0b00000#5) || (op == 0b110001#6 && r2 == 0b00000#5) ||
        (op == 0b110111#6 && r2 == 0b00000#5)) := by
  simp [isSixByte]

theorem needHw1_formatI (r2 : BitVec 5) (op : BitVec 6) (low : BitVec 5) :
    needHw1 (formatI r2 op low) =
      ((op == 0b111001#6 || op == 0b111011#6 || op == 0b111111#6) || isSixByte (formatI r2 op low) ||
        (r2 == 0b00000#5 && op.extractLsb' 1 5 == 0b11110#5)) := by
  simp [needHw1, isFourByte, isJrGroup]

theorem needHw2_formatI (r2 : BitVec 5) (op : BitVec 6) (low : BitVec 5) (hw1 : Half) :
    needHw2 (formatI r2 op low) hw1 =
      (isSixByte (formatI r2 op low) ||
        (r2 == 0b00000#5 && op == 0b111100#6 && (low5 hw1 == 0b01001#5 || low5 hw1 == 0b01111#5))) := by
  simp [needHw2, isFormatXIV]

/-- JR is told from Format XIV by bit 16, so it is 4 bytes long (R84). -/
theorem needHw_jrDisp22 (x : BitVec 6) (y : BitVec 15) :
    needHw1 (0b0000011110#10 ++ x) = true ∧ needHw2 (0b0000011110#10 ++ x) (y ++ 0b0#1) = false := by
  obtain ⟨htop5, hop5, -, hop6⟩ := formatV_fields x
  have hodd : ∀ sub : BitVec 5, sub.extractLsb' 0 1 = 0b0#1 → sub ≠ 0b01001#5 ∧ sub ≠ 0b01111#5 := by decide
  have hsub := hodd _ (bit0_eq_low5 (y ++ 0b0#1) ▸ bit0_append15 y 0b0#1)
  have hsix : isSixByte (0b0000011110#10 ++ x) = false := by
    rcases hop6 with hop6 | hop6 <;> simp [isSixByte, hop6]
  simp [needHw1, needHw2, isJrGroup, isFormatXIV, htop5, hop5, hsix, hsub]

/-- The length rule reads the length of every instruction off its own encoding, whatever follows it. -/
theorem needHw_of_encode_prefix {i : Instr} {hw0 hw1 hw2 : Half} (h : encode i <+: [hw0, hw1, hw2]) :
    needHw1 hw0 = decide (2 < i.len) ∧ needHw2 hw0 hw1 = decide (4 < i.len) := by
  cases i <;>
    simp only [encode, disp32Halves, formatXIVHalves, List.cons_prefix_cons, List.nil_prefix, and_true] at h
  case jrDisp22 => obtain ⟨rfl, rfl⟩ := h; exact needHw_jrDisp22 ..
  case jrDisp32 => simp [← h.1, jrDisp32_hw0, isSixByte_formatI, needHw1_formatI, needHw2_formatI, Instr.len]
  case movImm32 => simp [← h.1, isSixByte_formatI, needHw1_formatI, needHw2_formatI, Instr.len]
  case jmpDisp32 => simp [← h.1, isSixByte_formatI, needHw1_formatI, needHw2_formatI, Instr.len]
  case stwDisp23 =>
    obtain ⟨rfl, rfl, -⟩ := h
    simp [isSixByte_formatI, needHw1_formatI, needHw2_formatI, Instr.len, (formatXIV_fields ..).2.2]
  case ldwDisp23 =>
    obtain ⟨rfl, rfl, -⟩ := h
    simp [isSixByte_formatI, needHw1_formatI, needHw2_formatI, Instr.len, (formatXIV_fields ..).2.2]
  case mulReg => simp [← h.1, isSixByte_formatI, needHw1_formatI, needHw2_formatI, Instr.len]
  case mulImm9 => simp [← h.1, isSixByte_formatI, needHw1_formatI, needHw2_formatI, Instr.len]
  case stwDisp16 => simp [← h.1, isSixByte_formatI, needHw1_formatI, needHw2_formatI, Instr.len]
  case ldwDisp16 => simp [← h.1, isSixByte_formatI, needHw1_formatI, needHw2_formatI, Instr.len]
  case addReg | addImm5 | cmpReg | cmpImm5 | movReg | movImm5 | sub | jmpReg =>
    simp [← h, isSixByte_formatI, needHw1_formatI, needHw2_formatI, Instr.len]
  all_goals exact needHw_of_bcond (h ▸ op4_formatIII ..) hw1

/-- Settles O35: whatever decodes is its own encoding, and the length rule reads that. -/
theorem lengthRuleGivesTheLength : Obligations.LengthRuleGivesTheLength := by
  intro j hw0 hw1 hw2 i h
  obtain ⟨-, -, henc⟩ := encode_prefix_of_decode h
  obtain ⟨h1, h2⟩ := needHw_of_encode_prefix henc
  rw [h1, h2]
  cases i <;> rfl

/-- Settles O36: the parameter stands in `decode_eq_some_iff` at one place, as what a JMP needs. -/
theorem jmpParameterRefusesOnlyJmp : Obligations.JmpParameterRefusesOnlyJmp := by
  intro hw0 hw1 hw2 i
  rw [decode_eq_some_iff, decode_eq_some_iff]
  cases isJmp i <;> simp

end Sys2Proof.Machine
end

section
/-! Bytes and halfwords: decoding the bytes of an encoding (R43, R60, R61), and the two round trips. -/

namespace Sys2Proof

/-! ### Bytes of halfwords (R43) -/

theorem halfOfBytes_bytesOfHalf (hw : Half) : halfOfBytes (hw.extractLsb' 0 8) (hw.extractLsb' 8 8) = hw := by
  ext i hi; simp [halfOfBytes]; grind

theorem bytesOfHalf_halfOfBytes (lo hi : Byte) : bytesOfHalf (halfOfBytes lo hi) = [lo, hi] := by
  have hlo : (hi ++ lo).extractLsb' 0 8 = lo := BitVec.extractLsb'_append_eq_right
  have hhi : (hi ++ lo).extractLsb' 8 8 = hi := BitVec.extractLsb'_append_eq_left
  rw [bytesOfHalf, halfOfBytes, hlo, hhi]

/-- An encoding is one, two or three halfwords, as its length in bytes says (R60). -/
theorem encode_shape (i : Instr) :
    (i.len = 2 ∧ ∃ hw0, encode i = [hw0]) ∨ (i.len = 4 ∧ ∃ hw0 hw1, encode i = [hw0, hw1]) ∨
      (i.len = 6 ∧ ∃ hw0 hw1 hw2, encode i = [hw0, hw1, hw2]) := by
  cases i with
  | jrDisp22 | mulReg | mulImm9 | stwDisp16 | ldwDisp16 => exact .inr (.inl ⟨rfl, _, _, rfl⟩)
  | movImm32 | jrDisp32 | jmpDisp32 | stwDisp23 | ldwDisp23 => exact .inr (.inr ⟨rfl, _, _, _, rfl⟩)
  | _ => exact .inl ⟨rfl, _, rfl⟩

/-! ### Decoding bytes, by what the length rule needs (R61) -/

theorem decodeBytes_two {j : Bool} {hw0 : Half} (rest : List Byte) (h1 : needHw1 hw0 = false) :
    decodeBytes j (bytesOfHalf hw0 ++ rest) = decodedOf j hw0 0#16 0#16 rest := by
  simp [bytesOfHalf, decodeBytes, halfOfBytes_bytesOfHalf, h1]

theorem decodeBytes_four {j : Bool} {hw0 hw1 : Half} (rest : List Byte) (h1 : needHw1 hw0 = true)
    (h2 : needHw2 hw0 hw1 = false) :
    decodeBytes j (bytesOfHalf hw0 ++ (bytesOfHalf hw1 ++ rest)) = decodedOf j hw0 hw1 0#16 rest := by
  simp [bytesOfHalf, decodeBytes, halfOfBytes_bytesOfHalf, h1, h2]

theorem decodeBytes_six {j : Bool} {hw0 hw1 hw2 : Half} (rest : List Byte) (h1 : needHw1 hw0 = true)
    (h2 : needHw2 hw0 hw1 = true) :
    decodeBytes j (bytesOfHalf hw0 ++ (bytesOfHalf hw1 ++ (bytesOfHalf hw2 ++ rest))) =
      decodedOf j hw0 hw1 hw2 rest := by
  simp [bytesOfHalf, decodeBytes, halfOfBytes_bytesOfHalf, h1, h2]

/-- A halfword's instruction and rest from what `decodedOf` answers. -/
theorem decodedOf_insn_iff {j : Bool} {hw0 hw1 hw2 : Half} {rest rest' : List Byte} {i : Instr} :
    decodedOf j hw0 hw1 hw2 rest = .insn i rest' ↔ decode j hw0 hw1 hw2 = some i ∧ rest = rest' := by
  unfold decodedOf
  cases decode j hw0 hw1 hw2 <;> simp

/-- Everything bytes that decode to an instruction can be: as many halfwords as the length rule needs, which decode to
it, and the rest. -/
theorem decodeBytes_insn {j : Bool} {bs rest : List Byte} {i : Instr} (h : decodeBytes j bs = .insn i rest) :
    (∃ hw0, bs = bytesOfHalf hw0 ++ rest ∧ needHw1 hw0 = false ∧ decode j hw0 0#16 0#16 = some i) ∨
    (∃ hw0 hw1, bs = bytesOfHalf hw0 ++ (bytesOfHalf hw1 ++ rest) ∧ needHw1 hw0 = true ∧ needHw2 hw0 hw1 = false ∧
      decode j hw0 hw1 0#16 = some i) ∨
    (∃ hw0 hw1 hw2, bs = bytesOfHalf hw0 ++ (bytesOfHalf hw1 ++ (bytesOfHalf hw2 ++ rest)) ∧ needHw1 hw0 = true ∧
      needHw2 hw0 hw1 = true ∧ decode j hw0 hw1 hw2 = some i) := by
  unfold decodeBytes at h
  split at h
  · next b0 b1 rest0 =>
    split at h
    · next h1 =>
      split at h
      · next b2 b3 rest1 =>
        split at h
        · next h2 =>
          split at h
          · next b4 b5 rest2 =>
            obtain ⟨hd, rfl⟩ := decodedOf_insn_iff.mp h
            exact .inr (.inr ⟨_, _, _, by simp [bytesOfHalf_halfOfBytes], h1, h2, hd⟩)
          · cases h
        · next h2 =>
          obtain ⟨hd, rfl⟩ := decodedOf_insn_iff.mp h
          exact .inr (.inl ⟨_, _, by simp [bytesOfHalf_halfOfBytes], h1, by simpa using h2, hd⟩)
      · cases h
    · next h1 =>
      obtain ⟨hd, rfl⟩ := decodedOf_insn_iff.mp h
      exact .inl ⟨_, by simp [bytesOfHalf_halfOfBytes], by simpa using h1, hd⟩
  · cases h

end Sys2Proof

namespace Sys2Proof.Machine

/-- An encoding is as many halfwords as the length rule reads. -/
theorem encode_cases (i : Instr) :
    (∃ hw0, encode i = [hw0] ∧ i.len = 2 ∧ needHw1 hw0 = false) ∨
    (∃ hw0 hw1, encode i = [hw0, hw1] ∧ i.len = 4 ∧ needHw1 hw0 = true ∧ needHw2 hw0 hw1 = false) ∨
    (∃ hw0 hw1 hw2, encode i = [hw0, hw1, hw2] ∧ i.len = 6 ∧ needHw1 hw0 = true ∧ needHw2 hw0 hw1 = true) := by
  rcases encode_shape i with ⟨hlen, hw0, henc⟩ | ⟨hlen, hw0, hw1, henc⟩ | ⟨hlen, hw0, hw1, hw2, henc⟩
  · obtain ⟨h1, -⟩ := needHw_of_encode_prefix (i := i) (hw0 := hw0) (hw1 := 0#16) (hw2 := 0#16) (by simp [henc])
    exact .inl ⟨hw0, henc, hlen, by simpa [hlen] using h1⟩
  · obtain ⟨h1, h2⟩ := needHw_of_encode_prefix (i := i) (hw0 := hw0) (hw1 := hw1) (hw2 := 0#16) (by simp [henc])
    exact .inr (.inl ⟨hw0, hw1, henc, hlen, by simpa [hlen] using h1, by simpa [hlen] using h2⟩)
  · obtain ⟨h1, h2⟩ := needHw_of_encode_prefix (i := i) (hw0 := hw0) (hw1 := hw1) (hw2 := hw2) (by simp [henc])
    exact .inr (.inr ⟨hw0, hw1, hw2, henc, hlen, by simpa [hlen] using h1, by simpa [hlen] using h2⟩)

/-- Settles O31: by the number of halfwords; the length rule reads no more of them than the encoding has, so the padding
that stands for the others is any. -/
theorem decodeOfEncodeIsTheInstruction : Obligations.DecodeOfEncodeIsTheInstruction := by
  intro j i rest hwf hjmp
  rcases encode_cases i with ⟨hw0, henc, -, h1⟩ | ⟨hw0, hw1, henc, -, h1, h2⟩ | ⟨hw0, hw1, hw2, henc, -, h1, h2⟩
  · have hdec : decode j hw0 0#16 0#16 = some i := decode_of_encode_prefix hwf hjmp (by simp [henc])
    simp [encodeBytes, henc, decodeBytes_two rest h1, decodedOf_insn_iff, hdec]
  · have hdec : decode j hw0 hw1 0#16 = some i := decode_of_encode_prefix hwf hjmp (by simp [henc])
    simp [encodeBytes, henc, decodeBytes_four rest h1 h2, decodedOf_insn_iff, hdec]
  · have hdec : decode j hw0 hw1 hw2 = some i := decode_of_encode_prefix hwf hjmp (by simp [henc])
    simp [encodeBytes, henc, decodeBytes_six rest h1 h2, decodedOf_insn_iff, hdec]

/-- The encoding that halfwords begin with is those of them the length rule reads. -/
theorem encode_eq_of_prefix {i : Instr} {hw0 hw1 hw2 : Half} (h : encode i <+: [hw0, hw1, hw2]) :
    encode i = if needHw1 hw0 then (if needHw2 hw0 hw1 then [hw0, hw1, hw2] else [hw0, hw1]) else [hw0] := by
  obtain ⟨h1, h2⟩ := needHw_of_encode_prefix h
  rw [h1, h2]
  rcases encode_shape i with ⟨hlen, _, henc⟩ | ⟨hlen, _, _, henc⟩ | ⟨hlen, _, _, _, henc⟩ <;>
    · rw [henc] at h ⊢
      simpa [hlen] using h

/-- Settles O32: the halfwords the length rule reads are the encoding of what they decode to. -/
theorem onlyEncodingsDecode : Obligations.OnlyEncodingsDecode := by
  intro j bs rest i h
  rcases decodeBytes_insn h with ⟨hw0, rfl, h1, hdec⟩ | ⟨hw0, hw1, rfl, h1, h2, hdec⟩ |
    ⟨hw0, hw1, hw2, rfl, h1, h2, hdec⟩
  all_goals obtain ⟨hwf, hjmp, hpre⟩ := encode_prefix_of_decode hdec
  · exact ⟨hwf, hjmp, by simp [encodeBytes, encode_eq_of_prefix hpre, h1]⟩
  · exact ⟨hwf, hjmp, by simp [encodeBytes, encode_eq_of_prefix hpre, h1, h2]⟩
  · exact ⟨hwf, hjmp, by simp [encodeBytes, encode_eq_of_prefix hpre, h1, h2]⟩

end Sys2Proof.Machine
end

section
/-! Fetching and stepping (R46, R54, R55, R61, R185 to R187). -/

namespace Sys2Proof.Machine

/-! ### A step by what the fetch answers -/

theorem step_of_fetch_error {s : State} {f : Fault} (hs : s.fault = none) (h : fetch s = .error f) :
    step s = .fault f := by
  simp [step, nextInstr, hs, h]

theorem step_of_decode_some {s : State} {hw0 hw1 hw2 : Half} {i : Instr} (hs : s.fault = none)
    (h : fetch s = .ok (hw0, hw1, hw2)) (hdec : decode s.params.jmpEncodingAdmitted hw0 hw1 hw2 = some i) :
    step s = exec i s := by
  simp [step, nextInstr, hs, h, hdec]

theorem step_of_decode_none {s : State} {hw0 hw1 hw2 : Half} (hs : s.fault = none)
    (h : fetch s = .ok (hw0, hw1, hw2)) (hdec : decode s.params.jmpEncodingAdmitted hw0 hw1 hw2 = none) :
    step s = .fault (.reservedInstruction s.pc hw0) := by
  simp [step, nextInstr, hs, h, hdec]

/-- Settles O39: neither `nextInstr` nor `step` adds anything. -/
theorem stepRunsTheFetchedInstruction : Obligations.StepRunsTheFetchedInstruction :=
  fun _ _ _ _ _ => step_of_decode_some

/-- Settles O42: it is the answer of `nextInstr` where `decode` gives none. -/
theorem reservedEncodingFaults : Obligations.ReservedEncodingFaults :=
  fun _ _ _ _ => step_of_decode_none

/-! ### A fetch by what its halfwords answer -/

theorem fetch_two {s : State} {hw0 : Half} (h0 : fetchHalf s s.pc = .ok hw0) (hn1 : needHw1 hw0 = false) :
    fetch s = .ok (hw0, 0#16, 0#16) := by
  simp [fetch, h0, hn1]

theorem fetch_four {s : State} {hw0 hw1 : Half} (h0 : fetchHalf s s.pc = .ok hw0) (hn1 : needHw1 hw0 = true)
    (h1 : fetchHalf s (s.pc + 2#32) = .ok hw1) (hn2 : needHw2 hw0 hw1 = false) : fetch s = .ok (hw0, hw1, 0#16) := by
  simp [fetch, h0, hn1, h1, hn2]

theorem fetch_six {s : State} {hw0 hw1 hw2 : Half} (h0 : fetchHalf s s.pc = .ok hw0) (hn1 : needHw1 hw0 = true)
    (h1 : fetchHalf s (s.pc + 2#32) = .ok hw1) (hn2 : needHw2 hw0 hw1 = true)
    (h2 : fetchHalf s (s.pc + 4#32) = .ok hw2) : fetch s = .ok (hw0, hw1, hw2) := by
  simp [fetch, h0, hn1, h1, hn2, h2]

theorem fetch_error_first {s : State} {f : Fault} (h0 : fetchHalf s s.pc = .error f) : fetch s = .error f := by
  simp [fetch, h0]

theorem fetch_error_second {s : State} {hw0 : Half} {f : Fault} (h0 : fetchHalf s s.pc = .ok hw0)
    (hn1 : needHw1 hw0 = true) (h1 : fetchHalf s (s.pc + 2#32) = .error f) : fetch s = .error f := by
  simp [fetch, h0, hn1, h1]

theorem fetch_error_third {s : State} {hw0 hw1 : Half} {f : Fault} (h0 : fetchHalf s s.pc = .ok hw0)
    (hn1 : needHw1 hw0 = true) (h1 : fetchHalf s (s.pc + 2#32) = .ok hw1) (hn2 : needHw2 hw0 hw1 = true)
    (h2 : fetchHalf s (s.pc + 4#32) = .error f) : fetch s = .error f := by
  simp [fetch, h0, hn1, h1, hn2, h2]

/-! ### The instruction whose bytes lie at the pc -/

/-- An offset that stays below the top of the address space is not lost in the sum. -/
theorem le_toNat_add_ofNat {pc : Word} {n : Nat} (h : pc.toNat + n < 4294967296) :
    pc.toNat ≤ (pc + BitVec.ofNat 32 n).toNat := by
  simp only [BitVec.toNat_add, BitVec.toNat_ofNat]
  omega

/-- The halfword `k` bytes into fetchable bytes at the pc is fetched as it stands there. -/
theorem fetchHalf_of_holdsBytes {s : State} {n k : Nat} {bs : List Byte} {hw : Half} (hf : s.Fetchable n)
    (hb : s.HoldsBytes s.pc bs) (hk : k + 1 < 2 * n) (hlo : bs[k]? = some (hw.extractLsb' 0 8))
    (hhi : bs[k + 1]? = some (hw.extractLsb' 8 8)) : fetchHalf s (s.pc + BitVec.ofNat 32 k) = .ok hw := by
  obtain ⟨htop, hfetch⟩ := hf
  have hnext : s.pc + BitVec.ofNat 32 k + 1#32 = s.pc + BitVec.ofNat 32 (k + 1) := by
    rw [BitVec.add_assoc, ← BitVec.ofNat_add]
  rw [fetchHalf_ok, hnext, hb k _ hlo, hb (k + 1) _ hhi, halfOfBytes_bytesOfHalf]
  exact ⟨le_toNat_add_ofNat (by omega), hfetch k (by omega), hfetch (k + 1) hk, rfl⟩

/-- The same for the first halfword, whose address is the pc itself. -/
theorem fetchHalf_pc_of_holdsBytes {s : State} {n : Nat} {bs : List Byte} {hw : Half} (hf : s.Fetchable n)
    (hb : s.HoldsBytes s.pc bs) (hn : 1 < 2 * n) (hlo : bs[0]? = some (hw.extractLsb' 0 8))
    (hhi : bs[1]? = some (hw.extractLsb' 8 8)) : fetchHalf s s.pc = .ok hw := by
  simpa using fetchHalf_of_holdsBytes (k := 0) hf hb hn hlo hhi

/-- Settles O40: the fetch reads the encoding's halfwords and no more, and these decode to the instruction. -/
theorem stepRunsTheInstructionWhoseBytesLieAtPc : Obligations.StepRunsTheInstructionWhoseBytesLieAtPc := by
  intro s i hs hwf hjmp hf hb
  rcases encode_cases i with ⟨hw0, henc, hlen, hn1⟩ | ⟨hw0, hw1, henc, hlen, hn1, hn2⟩ |
    ⟨hw0, hw1, hw2, henc, hlen, hn1, hn2⟩ <;>
    simp only [hlen, encodeBytes, henc] at hf hb
  · have h0 := fetchHalf_pc_of_holdsBytes (hw := hw0) hf hb (by decide) rfl rfl
    exact step_of_decode_some hs (fetch_two h0 hn1) (decode_of_encode_prefix hwf hjmp (by simp [henc]))
  · have h0 := fetchHalf_pc_of_holdsBytes (hw := hw0) hf hb (by decide) rfl rfl
    have h1 := fetchHalf_of_holdsBytes (hw := hw1) (k := 2) hf hb (by decide) rfl rfl
    exact step_of_decode_some hs (fetch_four h0 hn1 h1 hn2) (decode_of_encode_prefix hwf hjmp (by simp [henc]))
  · have h0 := fetchHalf_pc_of_holdsBytes (hw := hw0) hf hb (by decide) rfl rfl
    have h1 := fetchHalf_of_holdsBytes (hw := hw1) (k := 2) hf hb (by decide) rfl rfl
    have h2 := fetchHalf_of_holdsBytes (hw := hw2) (k := 4) hf hb (by decide) rfl rfl
    exact step_of_decode_some hs (fetch_six h0 hn1 h1 hn2 h2) (decode_of_encode_prefix hwf hjmp (by simp [henc]))

/-! ### The faults of a fetch (R54, R55, R185) -/

theorem fetchHalf_of_wrapped {s : State} {a : Word} (h : a.toNat < s.pc.toNat) :
    fetchHalf s a = .error (.fetchFault s.pc) := by
  rw [fetchHalf, if_pos h]

theorem fetchHalf_of_not_fetchable {s : State} {a : Word} (ha : s.pc.toNat ≤ a.toNat)
    (h : (s.fetchable a && s.fetchable (a + 1#32)) = false) : fetchHalf s a = .error (.fetchFault a) := by
  rw [fetchHalf, if_neg (Nat.not_lt.mpr ha), if_pos h]

theorem fetchHalf_of_fetchable {s : State} {a : Word} (ha : s.pc.toNat ≤ a.toNat)
    (h : (s.fetchable a && s.fetchable (a + 1#32)) = true) :
    fetchHalf s a = .ok (halfOfBytes (s.readByte a) (s.readByte (a + 1#32))) := by
  rw [fetchHalf_ok]
  simpa [ha] using h

/-- Settles O41: an offset of 2 or 4 wraps exactly where the pc is that close to the top. -/
theorem fetchFaultNamesTheHalfword : Obligations.FetchFaultNamesTheHalfword := by
  intro s hs
  have hadd3 : s.pc + 3#32 = s.pc + 2#32 + 1#32 := by rw [BitVec.add_assoc]; rfl
  have hadd5 : s.pc + 5#32 = s.pc + 4#32 + 1#32 := by rw [BitVec.add_assoc]; rfl
  rw [hadd3, hadd5]
  refine ⟨fun hf => step_of_fetch_error hs (fetch_error_first (fetchHalf_of_not_fetchable le_rfl hf)), ?_⟩
  rintro hw0 hf0 rfl hn1
  have h0 := fetchHalf_of_fetchable le_rfl hf0
  refine ⟨fun htop => ?_, fun hlow hf => ?_, ?_⟩
  · have hwrap : (s.pc + 2#32).toNat < s.pc.toNat := by bv_omega
    exact step_of_fetch_error hs (fetch_error_second h0 hn1 (fetchHalf_of_wrapped hwrap))
  · have hle : s.pc.toNat ≤ (s.pc + 2#32).toNat := le_toNat_add_ofNat (by omega)
    exact step_of_fetch_error hs (fetch_error_second h0 hn1 (fetchHalf_of_not_fetchable hle hf))
  · rintro hw1 hlow1 hf1 rfl hn2
    have h1 := fetchHalf_of_fetchable (le_toNat_add_ofNat (by omega)) hf1
    refine ⟨fun htop => ?_, fun hlow hf => ?_⟩
    · have hwrap : (s.pc + 4#32).toNat < s.pc.toNat := by bv_omega
      exact step_of_fetch_error hs (fetch_error_third h0 hn1 h1 hn2 (fetchHalf_of_wrapped hwrap))
    · have hle : s.pc.toNat ≤ (s.pc + 4#32).toNat := le_toNat_add_ofNat (by omega)
      exact step_of_fetch_error hs (fetch_error_third h0 hn1 h1 hn2 (fetchHalf_of_not_fetchable hle hf))

end Sys2Proof.Machine
end

section
/-! What every instruction, step and run leaves as it was, and the invariant (R22, R26, R27, R38, R53). -/

namespace Sys2Proof.Machine

/-! ### The branches as syntax -/

/-- The branches are the sixteen Bcond, JR and JMP. -/
theorem isBranch_cases {i : Instr} (h : isBranch i = true) :
    (∃ c d, i = bcond c d) ∨ (∃ d, i = .jrDisp22 d) ∨ (∃ d, i = .jrDisp32 d) ∨ (∃ reg1, i = .jmpReg reg1) ∨
      ∃ d reg1, i = .jmpDisp32 d reg1 := by
  cases i with
  | bv d => exact .inl ⟨.v, d, rfl⟩
  | bl d => exact .inl ⟨.l, d, rfl⟩
  | be d => exact .inl ⟨.e, d, rfl⟩
  | bnh d => exact .inl ⟨.nh, d, rfl⟩
  | bn d => exact .inl ⟨.n, d, rfl⟩
  | br d => exact .inl ⟨.r, d, rfl⟩
  | blt d => exact .inl ⟨.lt, d, rfl⟩
  | ble d => exact .inl ⟨.le, d, rfl⟩
  | bnv d => exact .inl ⟨.nv, d, rfl⟩
  | bnl d => exact .inl ⟨.nl, d, rfl⟩
  | bne d => exact .inl ⟨.ne, d, rfl⟩
  | bh d => exact .inl ⟨.h, d, rfl⟩
  | bp d => exact .inl ⟨.p, d, rfl⟩
  | bsa d => exact .inl ⟨.sa, d, rfl⟩
  | bge d => exact .inl ⟨.ge, d, rfl⟩
  | bgt d => exact .inl ⟨.gt, d, rfl⟩
  | jrDisp22 d => exact .inr (.inl ⟨d, rfl⟩)
  | jrDisp32 d => exact .inr (.inr (.inl ⟨d, rfl⟩))
  | jmpReg reg1 => exact .inr (.inr (.inr (.inl ⟨reg1, rfl⟩)))
  | jmpDisp32 d reg1 => exact .inr (.inr (.inr (.inr ⟨d, reg1, rfl⟩)))
  | _ => cases h

/-- A branch stores nothing. -/
theorem storeAddr_of_isBranch {i : Instr} (h : isBranch i = true) (s : State) : storeAddr s i = none := by
  rcases isBranch_cases h with ⟨c, d, rfl⟩ | ⟨d, rfl⟩ | ⟨d, rfl⟩ | ⟨reg1, rfl⟩ | ⟨d, reg1, rfl⟩
  · cases c <;> rfl
  all_goals rfl

/-! ### Registers, memory and the pc of an instruction that completes -/

/-- Settles O47: the registers `exec_next` lets change are the destinations. -/
theorem onlyDestinationRegistersChange : Obligations.OnlyDestinationRegistersChange := by
  intro i s t h
  rcases exec_next h with ⟨_, _, rfl⟩ | ⟨_, _, _, _, _, rfl⟩ | ⟨r, v, _, hd, _, _, _, rfl⟩ | ⟨r, v, hd, _, _, rfl⟩ |
    ⟨q, r, v, w, hd, _, _, rfl⟩ | ⟨_, _, _, _, _, _, rfl⟩ <;> intro p hp
  case inl => simp
  case inr.inl => simp
  case inr.inr.inr.inr.inr => simp
  all_goals
    simp only [hd, List.mem_cons, List.not_mem_nil, or_false, not_or] at hp
    simp [State.readReg_writeReg, hp]

/-- What an instruction that completes has done to memory. -/
theorem exec_next_mem {i : Instr} {s t : State} (h : exec i s = .next t) :
    (storeAddr s i = none ∧ t.mem = s.mem) ∨
      ∃ adr v, storeAddr s i = some adr ∧ StoreOk s adr ∧ t.mem = (s.putWord adr v).mem := by
  rcases exec_next h with ⟨hb, _, rfl⟩ | ⟨_, _, _, hst, _, rfl⟩ | ⟨_, _, _, _, _, hst, _, rfl⟩ |
    ⟨_, _, _, hst, _, rfl⟩ | ⟨_, _, _, _, _, hst, _, rfl⟩ | ⟨adr, v, _, hst, _, hok, rfl⟩
  case inl => exact .inl ⟨storeAddr_of_isBranch hb s, rfl⟩
  case inr.inr.inr.inr.inr => exact .inr ⟨adr, v, hst, hok, rfl⟩
  all_goals exact .inl ⟨hst, by simp⟩

/-- Settles O48: the two cases of `exec_next_mem`. -/
theorem onlyStoresChangeMemory : Obligations.OnlyStoresChangeMemory := by
  intro i s t h
  rcases exec_next_mem h with ⟨hst, hmem⟩ | ⟨adr, v, hst, hok, hmem⟩
  · exact ⟨fun _ => State.readByte_congr hmem, fun adr hadr => by simp [hst] at hadr⟩
  · refine ⟨fun hnone => by simp [hst] at hnone, fun adr' hadr => ?_⟩
    obtain rfl : adr = adr' := by simpa [hst] using hadr
    exact ⟨fun a ha => (State.readByte_congr hmem a).trans (State.readByte_putWord_ne s v ha), hok⟩

/-- Settles O51: every case of `exec_next` but the jump advances the pc. -/
theorem nonBranchesAdvanceByTheirLength : Obligations.NonBranchesAdvanceByTheirLength := by
  intro i s t h hi
  rcases exec_next h with ⟨hb, _, _⟩ | ⟨_, _, _, _, _, rfl⟩ | ⟨_, _, _, _, _, _, _, rfl⟩ | ⟨_, _, _, _, _, rfl⟩ |
    ⟨_, _, _, _, _, _, _, rfl⟩ | ⟨_, _, _, _, _, _, rfl⟩
  case inl => rw [hi] at hb; cases hb
  all_goals simp

/-! ### Branches -/

/-- Settles O52: `branchIf` and `jumpTo` set the pc alone. -/
theorem branchesChangeOnlyThePc : Obligations.BranchesChangeOnlyThePc := by
  intro i s hi
  rcases isBranch_cases hi with ⟨c, d, rfl⟩ | ⟨d, rfl⟩ | ⟨d, rfl⟩ | ⟨reg1, rfl⟩ | ⟨d, reg1, rfl⟩
  · exact ⟨_, (exec_bcond c d s).trans (branchIf_eq ..)⟩
  all_goals exact ⟨_, rfl⟩

/-- Settles O53: the displacement of each of the three self-branches is 0, and BR is always taken. -/
theorem endedRunStaysWhereItIs : Obligations.EndedRunStaysWhereItIs := by
  intro s h
  unfold State.ended at h
  split at h
  · next i hi =>
    have hstep : step s = exec i s := by simp [step, hi]
    rw [hstep]
    unfold isSelfBranch at h
    split at h
    case h_1 d => rw [eq_of_beq h]; simp [exec, execBr, condHolds, branchIf_eq, disp9Value]
    case h_2 d => rw [eq_of_beq h]; simp [exec, execJrDisp22, State.jumpTo, disp22Value]
    case h_3 d => rw [eq_of_beq h]; simp [exec, execJrDisp32, State.jumpTo, disp32Value]
    case h_4 => cases h
  · cases h

/-! ### The pc stays even (R27) -/

theorem getLsbD_zero_add {x y : Word} (hx : x.getLsbD 0 = false) (hy : y.getLsbD 0 = false) :
    (x + y).getLsbD 0 = false := by
  rw [BitVec.getLsbD_add (by decide), hx, hy, BitVec.carry_zero]
  rfl

theorem getLsbD_zero_append_zero {w : Nat} (x : BitVec w) : (x ++ 0b0#1).getLsbD 0 = false := by
  rw [BitVec.getLsbD_append]
  rfl

/-- A displacement whose bit 0 is the constant 0 is even (R75 to R78). -/
theorem getLsbD_zero_signExtend_append_zero {w : Nat} (x : BitVec w) :
    ((x ++ 0b0#1).signExtend 32).getLsbD 0 = false := by
  rw [BitVec.getLsbD_signExtend, if_pos (Nat.succ_pos w), getLsbD_zero_append_zero]
  rfl

/-- A branch from an even pc goes to an even pc: bit 0 of a displacement is 0, and JMP clears bit 0 of its target. -/
theorem branch_keeps_pcEven {i : Instr} {s t : State} (hi : isBranch i = true) (hs : s.PcEven)
    (h : exec i s = .next t) : t.PcEven := by
  rcases isBranch_cases hi with ⟨c, d, rfl⟩ | ⟨d, rfl⟩ | ⟨d, rfl⟩ | ⟨reg1, rfl⟩ | ⟨d, reg1, rfl⟩
  · rw [exec_bcond, branchIf_eq] at h
    injection h with h
    subst h
    dsimp only [State.PcEven]
    split
    · exact getLsbD_zero_add hs (getLsbD_zero_signExtend_append_zero d)
    · exact getLsbD_zero_add hs (by decide)
  all_goals
    injection h with h
    subst h
  · exact getLsbD_zero_add hs (getLsbD_zero_signExtend_append_zero d)
  · exact getLsbD_zero_add hs (getLsbD_zero_append_zero d)
  · exact getLsbD_zero_append_zero _
  · exact getLsbD_zero_append_zero _

/-- Every length is even (R60). -/
theorem getLsbD_zero_len (i : Instr) : (BitVec.ofNat 32 i.len).getLsbD 0 = false := by
  rcases encode_shape i with ⟨h, -⟩ | ⟨h, -⟩ | ⟨h, -⟩ <;> rw [h] <;> decide

theorem exec_keeps_pcEven {i : Instr} {s t : State} (hs : s.PcEven) (h : exec i s = .next t) : t.PcEven := by
  cases hi : isBranch i
  · rw [State.PcEven, nonBranchesAdvanceByTheirLength i s t h hi]
    exact getLsbD_zero_add hs (getLsbD_zero_len i)
  · exact branch_keeps_pcEven hi hs h

/-! ### The invariant -/

theorem exec_keeps_mem_wf {i : Instr} {s t : State} (hs : Memory.wf s.mem = true) (h : exec i s = .next t) :
    Memory.wf t.mem = true := by
  rcases exec_next_mem h with ⟨-, hmem⟩ | ⟨adr, v, -, -, hmem⟩
  · rwa [hmem]
  · rw [hmem]
    exact State.wf_putWord hs adr v

/-- Settles O56: the pc by the branch targets and the lengths, memory by the one instruction that stores. -/
theorem stepKeepsTheInvariant : Obligations.StepKeepsTheInvariant := by
  rintro s t ⟨hpc, hmem⟩ h
  obtain ⟨i, -, hexec⟩ := step_next h
  exact ⟨exec_keeps_pcEven hpc hexec, exec_keeps_mem_wf hmem hexec⟩

/-! ### The program image (R53) -/

/-- No instruction writes a byte of the program image: a store is checked against it. -/
theorem exec_keeps_code {i : Instr} {s t : State} (h : exec i s = .next t) {a : Word} (ha : s.inCode a = true) :
    t.readByte a = s.readByte a := by
  rcases exec_next_mem h with ⟨-, hmem⟩ | ⟨adr, v, -, ⟨-, hcode⟩, hmem⟩
  · exact State.readByte_congr hmem a
  · have hout : a ∉ wordAddrs adr := fun hin => absurd ha (List.any_eq_false.mp hcode a hin)
    exact (State.readByte_congr hmem a).trans (State.readByte_putWord_ne s v hout)

/-- What a run keeps: the invariant, the parameters, the fault component and the bytes of the program image. -/
def ImageKept (s t : State) : Prop :=
  (s.Inv → t.Inv) ∧ RestSame s t ∧ ∀ a, s.inCode a = true → t.readByte a = s.readByte a

theorem imageKept_refl (s : State) : ImageKept s s :=
  ⟨id, ⟨rfl, rfl⟩, fun _ _ => rfl⟩

theorem imageKept_of_step {s t u : State} (hstep : step s = .next t) (h : ImageKept t u) : ImageKept s u := by
  obtain ⟨hinv, ⟨hparams, hfault⟩, hcode⟩ := h
  obtain ⟨i, -, hexec⟩ := step_next hstep
  obtain ⟨hparams', hfault'⟩ := exec_next_rest hexec
  refine ⟨fun hs => hinv (stepKeepsTheInvariant s t hs hstep), ⟨hparams.trans hparams', hfault.trans hfault'⟩, ?_⟩
  intro a ha
  exact (hcode a (State.inCode_congr hparams' a ▸ ha)).trans (exec_keeps_code hexec ha)

/-- Settles O57: a fetched byte lies in `code_region`, so `ImageKept` speaks of it. -/
theorem programImageIsImmutableAlongRuns : Obligations.ProgramImageIsImmutableAlongRuns := by
  intro k s t hs hrun
  obtain ⟨hinv, ⟨hparams, hfault⟩, hcode⟩ :=
    run_induction imageKept_refl (fun _ _ _ => imageKept_of_step) k s t hrun
  refine ⟨hinv hs, hparams, hfault, hcode, fun a hw hfetch => ?_⟩
  obtain ⟨-, hlo, hhi, rfl⟩ := (fetchHalf_ok ..).mp hfetch
  have hread : ∀ b, t.fetchable b = true → t.readByte b = s.readByte b := fun b hb =>
    hcode b (State.inCode_congr hparams b ▸ Bool.and_elim_right hb)
  rw [hread a hlo, hread _ hhi]

/-! ### Faults and refusals (R180, R186) -/

/-- Everything a load's end can answer with a fault. -/
theorem loadWord_fault {s : State} {adr len : Word} {r : Reg} {f : Fault} (h : loadWord s adr r len = .fault f) :
    f ∈ [.misalignedAccess adr, .accessFault adr] := by
  unfold loadWord raise at h
  rcases memRead_cases s adr with ⟨_, e⟩ | ⟨_, _, e⟩ | ⟨_, e⟩ <;> rw [e] at h <;> cases h <;> simp

/-- Everything a store's end can answer with a fault. -/
theorem storeWord_fault {s : State} {adr v len : Word} {f : Fault} (h : storeWord s adr v len = .fault f) :
    f ∈ [.misalignedAccess adr, .accessFault adr, .storeToCode adr] := by
  unfold storeWord raise at h
  rcases memWrite_cases s adr v with ⟨_, e⟩ | ⟨_, _, e⟩ | ⟨_, _, e⟩ | ⟨_, _, e⟩ <;> rw [e] at h <;> cases h <;> simp

/-- Settles O45: the loads and stores by what their shared ends can answer; no other meaning faults, but for the
short MOVs to `r0`, which are not well formed. -/
theorem onlyLoadsAndStoresFault : Obligations.OnlyLoadsAndStoresFault := by
  intro i s f hwf h
  cases i with
  | ldwDisp16 d reg1 r => exact .inl ⟨d, reg1, r, rfl, loadWord_fault h⟩
  | ldwDisp23 d reg1 r => exact .inr (.inl ⟨d, reg1, r, rfl, loadWord_fault h⟩)
  | stwDisp16 r d reg1 => exact .inr (.inr (.inl ⟨r, d, reg1, rfl, storeWord_fault h⟩))
  | stwDisp23 r d reg1 => exact .inr (.inr (.inr ⟨r, d, reg1, rfl, storeWord_fault h⟩))
  | movReg reg1 reg2 =>
    have hreg2 : reg2 ≠ 0#5 := by simpa [Instr.wf] using hwf
    simp [exec, execMovReg, hreg2] at h
  | movImm5 imm5 reg2 =>
    have hreg2 : reg2 ≠ 0#5 := by simpa [Instr.wf] using hwf
    simp [exec, execMovImm5, hreg2] at h
  | _ => cases h

theorem loadWord_ne_refused (s : State) (adr len : Word) (r : Reg) (m : Refusal) :
    loadWord s adr r len ≠ .refused m := by
  unfold loadWord raise
  split <;> nofun

theorem storeWord_ne_refused (s : State) (adr v len : Word) (m : Refusal) :
    storeWord s adr v len ≠ .refused m := by
  unfold storeWord raise
  split <;> nofun

/-- No meaning ends in a refusal. -/
theorem exec_ne_refused (i : Instr) (s : State) (m : Refusal) : exec i s ≠ .refused m := by
  cases i with
  | ldwDisp16 | ldwDisp23 => exact loadWord_ne_refused _ _ _ _ _
  | stwDisp16 | stwDisp23 => exact storeWord_ne_refused _ _ _ _ _
  | movReg => simp only [exec, execMovReg, raise]; split <;> nofun
  | movImm5 => simp only [exec, execMovImm5, raise]; split <;> nofun
  | _ => nofun

/-- Settles O44: a step answers a fault of the fetch or what `exec` answers. -/
theorem stepNeverRefuses : Obligations.StepNeverRefuses := by
  intro s m
  unfold step
  split
  · nofun
  · exact exec_ne_refused _ _ _

/-- Settles O43: both clauses read off `afterStep`, and the second off `nextInstr`, which looks at the fault first. -/
theorem faultIsPreciseAndTerminal : Obligations.FaultIsPreciseAndTerminal := by
  intro s f
  refine ⟨fun hs hstep => ?_, fun hs => ⟨?_, ?_⟩⟩
  · simp [State.afterStep, hs, hstep]
  · simp [step, nextInstr, hs]
  · simp [State.afterStep, hs]

/-! ### `r0` and the launch states (R21, R200) -/

/-- Settles O46: `r0` has no storage. -/
theorem registerZeroIsHardwired : Obligations.RegisterZeroIsHardwired :=
  fun s v => ⟨State.readReg_zero s, State.writeReg_zero s v⟩

/-- Settles O54: a launch copies its arguments. -/
theorem launchMeetsTheInvariant : Obligations.LaunchMeetsTheInvariant :=
  fun _ hwf => ⟨hwf, rfl, rfl, rfl, rfl, rfl, rfl⟩

/-- The one region of `mem_valid` at reset holds every address. -/
theorem memValid_reset (a : Word) : State.reset.memValid a = true := by
  have ha := a.isLt
  simpa [State.memValid, State.reset, State.launch, Launch.reset, Config.memValid, Region.holds] using ha

theorem readReg_reset (r : Reg) : State.reset.readReg r = 0#32 := by
  simp [State.readReg, State.reset, State.launch, Launch.reset, Config.initGr]

/-- Settles O55: field by field. -/
theorem resetValuesMeetTheInvariant : Obligations.ResetValuesMeetTheInvariant :=
  ⟨⟨by decide, State.reset_mem_wf⟩, rfl, rfl, readReg_reset, rfl, fun a => ⟨rfl, memValid_reset a, rfl⟩⟩

end Sys2Proof.Machine
end

section
/-! The condition codes and flags as relations of their operands (R100, R101, R121), and comparing branches. -/

namespace Sys2Proof.Machine

/-! ### Codes that differ in bit 3 (R121) -/

/-- Settles O15: a condition is known by its code, so the second is the first's partner in the table. -/
theorem conditionCodesPairAsNegations : Obligations.ConditionCodesPairAsNegations := by
  intro c c' p hcode hr hsa
  have hc' : c' = condOf (c.code ^^^ 0b1000#4) := by rw [← hcode, condOf_code]
  subst hc'
  cases c with
  | r => exact absurd rfl hr
  | sa => exact absurd rfl hsa
  | v | l | e | nh | n | lt | le => rfl
  | nv | nl | ne | h | p | ge | gt => exact (Bool.not_not _).symm

/-! ### S xor OV reads the sign of the exact result -/

/-- Of an exact result `d` of two words, the sign of the wrapped result is wrong exactly where `d` is out of range. -/
theorem wrapped_sign_xor_overflow {d : Int} {ov : Bool} (hlo : -4294967296 ≤ d) (hhi : d < 4294967296)
    (hov : ov = true ↔ d < -2147483648 ∨ 2147483647 < d) :
    (decide (d.bmod (2 ^ 32) < 0) ^^ ov) = true ↔ d < 0 := by
  rw [bne_iff_ne, ne_eq, ← Bool.coe_iff_coe, hov, decide_eq_true_eq, Int.bmod_def]
  split <;> omega

/-- After a compare, S xor OV is the sign of the exact difference. -/
theorem subFlags_sign_iff (a b : Word) : ((subFlags a b).s ^^ (subFlags a b).ov) = true ↔ a.toInt < b.toInt := by
  have hs : (subFlags a b).s = decide ((a.toInt - b.toInt).bmod (2 ^ 32) < 0) := by
    rw [← BitVec.toInt_sub, ← BitVec.msb_eq_toInt, subFlags]
  have ha := a.toInt_lt
  have ha' := a.le_toInt
  have hb := b.toInt_lt
  have hb' := b.le_toInt
  rw [hs, wrapped_sign_xor_overflow (by omega) (by omega) (subFlags_ov_iff_range a b)]
  omega

/-- After an addition, S xor OV is the sign of the exact sum. -/
theorem addFlags_sign_iff (a b : Word) : ((addFlags a b).s ^^ (addFlags a b).ov) = true ↔ a.toInt + b.toInt < 0 := by
  have hs : (addFlags a b).s = decide ((a.toInt + b.toInt).bmod (2 ^ 32) < 0) := by
    rw [addFlags_s, BitVec.msb_eq_toInt, BitVec.toInt_add]
  have ha := a.toInt_lt
  have ha' := a.le_toInt
  have hb := b.toInt_lt
  have hb' := b.le_toInt
  rw [hs, wrapped_sign_xor_overflow (by omega) (by omega) (addFlags_ov_iff_range a b)]

theorem subFlags_cy_iff (a b : Word) : (subFlags a b).cy = true ↔ a.toNat < b.toNat := by
  simp [subFlags]

theorem subFlags_z_iff (a b : Word) : (subFlags a b).z = true ↔ a = b := by
  simp [subFlags, BitVec.sub_eq_iff_eq_add]

/-- Settles O3: one lemma per flag or pair of flags. -/
theorem signXorOverflowReadsTrueOrder : Obligations.SignXorOverflowReadsTrueOrder := fun a b =>
  ⟨subFlags_sign_iff a b, subFlags_cy_iff a b, subFlags_z_iff a b, addFlags_sign_iff a b⟩

/-! ### Branches after a compare (section 6 of 40_arithmetic.md) -/

/-- The conditions of the comparing branches, read as relations of the minuend to the subtrahend. -/
theorem condHolds_compare {a b : Word} {p : Psw} (hcy : p.cy = (subFlags a b).cy) (hov : p.ov = (subFlags a b).ov)
    (hs : p.s = (subFlags a b).s) (hz : p.z = (subFlags a b).z) :
    (condHolds .lt p = true ↔ a.toInt < b.toInt) ∧ (condHolds .le p = true ↔ a.toInt ≤ b.toInt) ∧
    (condHolds .ge p = true ↔ b.toInt ≤ a.toInt) ∧ (condHolds .gt p = true ↔ b.toInt < a.toInt) ∧
    (condHolds .l p = true ↔ a.toNat < b.toNat) ∧ (condHolds .nh p = true ↔ a.toNat ≤ b.toNat) ∧
    (condHolds .nl p = true ↔ b.toNat ≤ a.toNat) ∧ (condHolds .h p = true ↔ b.toNat < a.toNat) ∧
    (condHolds .e p = true ↔ a = b) ∧ (condHolds .ne p = true ↔ a ≠ b) := by
  have hlt : (p.s ^^ p.ov) = true ↔ a.toInt < b.toInt := by rw [hs, hov, subFlags_sign_iff]
  have hl : p.cy = true ↔ a.toNat < b.toNat := by rw [hcy, subFlags_cy_iff]
  have he : p.z = true ↔ a = b := by rw [hz, subFlags_z_iff]
  have hle : ((p.s ^^ p.ov) || p.z) = true ↔ a.toInt ≤ b.toInt := by
    rw [Bool.or_eq_true, hlt, he, Int.le_iff_lt_or_eq, BitVec.toInt_inj]
  have hnh : (p.cy || p.z) = true ↔ a.toNat ≤ b.toNat := by
    rw [Bool.or_eq_true, hl, he, Nat.le_iff_lt_or_eq, BitVec.toNat_inj]
  refine ⟨hlt, hle, ?_, ?_, hl, hnh, ?_, ?_, he, ?_⟩ <;>
    simp only [condHolds, Bool.not_eq_true', ← Bool.not_eq_true, hlt, hle, hl, hnh, he, not_lt, not_le, ne_eq]

/-- A branch right after a 2-byte instruction at `pc`, by any relation that says when its condition holds. -/
theorem exec_bcond_after {c : Cond} {holds : Prop} {t : State} {pc : Word} (hpc : t.pc = pc + 2#32)
    (h : condHolds c t.psw = true ↔ holds) (d : BitVec 8) :
    (holds → exec (bcond c d) t = .next { t with pc := pc + 2#32 + disp9Value d }) ∧
      (¬ holds → exec (bcond c d) t = .next { t with pc := pc + 4#32 }) := by
  have hnext : t.pc + 2#32 = pc + 4#32 := by rw [hpc, BitVec.add_assoc]; rfl
  rw [exec_bcond, branchIf_eq, hnext, hpc]
  exact ⟨fun hh => by rw [if_pos (h.mpr hh)], fun hn => by rw [if_neg (mt h.mp hn)]⟩

/-- Settles O16: CMP leaves the flags of the difference, and each branch goes by its condition of them. -/
theorem compareThenBranchGoesByTheRelation : Obligations.CompareThenBranchGoesByTheRelation := by
  intro reg1 reg2 d s
  obtain ⟨-, t, ht, ⟨hcy, hov, hs, hz, -⟩, hpc, -⟩ := cmpRegFlagsAndFrame reg1 reg2 s
  obtain ⟨hlt, hle, hge, hgt, hl, hnh, hnl, hh, he, hne⟩ := condHolds_compare hcy hov hs hz
  refine ⟨t, ht, fun i holds hmem => ?_⟩
  simp only [List.mem_cons, List.not_mem_nil, or_false, Prod.mk.injEq] at hmem
  rcases hmem with ⟨rfl, rfl⟩ | ⟨rfl, rfl⟩ | ⟨rfl, rfl⟩ | ⟨rfl, rfl⟩ | ⟨rfl, rfl⟩ | ⟨rfl, rfl⟩ | ⟨rfl, rfl⟩ |
    ⟨rfl, rfl⟩ | ⟨rfl, rfl⟩ | ⟨rfl, rfl⟩
  · exact exec_bcond_after hpc hlt d
  · exact exec_bcond_after hpc hle d
  · exact exec_bcond_after hpc hge d
  · exact exec_bcond_after hpc hgt d
  · exact exec_bcond_after hpc hl d
  · exact exec_bcond_after hpc hnh d
  · exact exec_bcond_after hpc hnl d
  · exact exec_bcond_after hpc hh d
  · exact exec_bcond_after hpc he d
  · exact exec_bcond_after hpc hne d

end Sys2Proof.Machine
end

section
/-! Operand values (R72 to R79), MOV imm32 (R108), JMP (R141, R142) and MUL (R150 to R153). -/

namespace Sys2Proof.Machine

/-! ### Operand values -/

/-- A displacement is twice what is encoded: its bit 0 is the constant 0. -/
theorem toInt_signExtend_append_zero {w : Nat} (d : BitVec w) (hw : w + 1 ≤ 32) :
    ((d ++ 0b0#1).signExtend 32).toInt = 2 * d.toInt := by
  rw [BitVec.toInt_signExtend_of_le hw]
  rw [BitVec.toInt_append_zero]
  omega

/-- The value and range of a displacement of `w + 2` bits, bit 0 among them. -/
theorem disp_value_and_range {w : Nat} (d : BitVec (w + 1)) (hw : w + 2 ≤ 32) :
    ((d ++ 0b0#1).signExtend 32).toInt = 2 * d.toInt ∧ -2 ^ (w + 1) ≤ 2 * d.toInt ∧ 2 * d.toInt ≤ 2 ^ (w + 1) - 2 := by
  have hlo : -2 ^ w ≤ d.toInt := d.le_toInt
  have hhi : d.toInt < 2 ^ w := d.toInt_lt
  refine ⟨toInt_signExtend_append_zero d hw, ?_, ?_⟩ <;> rw [pow_succ] <;> omega

/-- Settles O25: sign extension keeps a value, and a signed number of `w` bits lies from `-2^(w-1)` to `2^(w-1) - 1`. -/
theorem operandValuesAndRanges : Obligations.OperandValuesAndRanges :=
  ⟨fun i => ⟨BitVec.toInt_signExtend_of_le (by decide), i.le_toInt, Int.le_of_lt_add_one i.toInt_lt⟩,
   fun i => ⟨imm9Value_toInt i, i.le_toInt, Int.le_of_lt_add_one i.toInt_lt⟩,
   fun d => disp_value_and_range d (by decide),
   fun d => disp_value_and_range d (by decide),
   fun d => disp_value_and_range d (by decide),
   fun d => disp_value_and_range d (by decide),
   fun d => (BitVec.toNat_append d 0b0#1).trans (by simp [Nat.shiftLeft_eq, Nat.mul_comm])⟩

/-! ### One register written -/

/-- A register written, `r0` or not, then the pc advanced: the end of MOV imm32 and LD.W. -/
theorem effects_of_writeReg_any {s t : State} {r : Reg} {v len : Word} (ht : t = (s.writeReg r v).advance len) :
    t.readReg r = (if r = 0#5 then 0#32 else v) ∧ t.pc = s.pc + len ∧ t.psw = s.psw ∧ RegsSameBut [r] s t ∧
      MemSame s t ∧ RestSame s t := by
  subst ht
  refine ⟨?_, ?_, ?_, ?_, ?_, ?_⟩
  · simp [State.readReg_writeReg]
  · simp
  · simp
  · simpa [RegsSameBut] using regsSameBut_writeReg s r v
  · simp [MemSame]
  · simp [RestSame]

/-- Settles O10: the three halfwords are those of the encoding, and the meaning writes one register. -/
theorem movImm32WritesAndFrame : Obligations.MovImm32WritesAndFrame := fun imm32 reg1 _ =>
  ⟨decode_movImm32 imm32 reg1, _, rfl, effects_of_writeReg_any rfl⟩

/-! ### JMP -/

/-- Settles O19: the pattern is decoded as the parameter says, and the target is `clearBit0` of the register. -/
theorem jmpRegJumpsToRegister : Obligations.JmpRegJumpsToRegister := fun reg1 _ =>
  ⟨decode_jmpReg reg1 true, decode_jmpReg reg1 false, rfl⟩

/-- Settles O20: as O19, with the sum in the place of the register. -/
theorem jmpDisp32JumpsToSum : Obligations.JmpDisp32JumpsToSum := fun d reg1 _ =>
  ⟨decode_jmpDisp32 d reg1 true, decode_jmpDisp32 d reg1 false, rfl⟩

/-! ### MUL -/

/-- The two words of an exact product, taken apart and put together, are the product: it is at most 2^62 in size. -/
theorem product_words_toInt (a b : Word) :
    ((BitVec.ofInt 64 (a.toInt * b.toInt)).extractLsb' 32 32 ++
      (BitVec.ofInt 64 (a.toInt * b.toInt)).extractLsb' 0 32 : BitVec (32 + 32)).toInt = a.toInt * b.toInt := by
  have hlo : -2 ^ 62 ≤ a.toInt * b.toInt := BitVec.le_toInt_mul_toInt
  have hhi : a.toInt * b.toInt ≤ 2 ^ 62 := BitVec.toInt_mul_toInt_le
  have hjoin : ∀ x : BitVec 64, (x.extractLsb' 32 32 ++ x.extractLsb' 0 32 : BitVec (32 + 32)) = x := fun x => by
    ext i hi; grind
  rw [hjoin, BitVec.toInt_ofInt_eq_self] <;> omega

/-- What both forms of MUL do: the words of the exact product to the two registers, the higher last (R150 to R152). -/
theorem multiplyInto_effects (a b : Word) (reg2 reg3 : Reg) (s : State) :
    ∃ t hi lo, multiplyInto a b reg2 reg3 s = .next t ∧ (hi ++ lo : BitVec (32 + 32)).toInt = a.toInt * b.toInt ∧
      t.readReg reg3 = (if reg3 = 0#5 then 0#32 else hi) ∧
      t.readReg reg2 = (if reg2 = 0#5 then 0#32 else if reg2 = reg3 then hi else lo) ∧
      t.pc = s.pc + 4#32 ∧ t.psw = s.psw ∧ RegsSameBut [reg2, reg3] s t ∧ MemSame s t ∧ RestSame s t := by
  obtain ⟨hpc, hpsw, hmem, hfault, hparams, hread⟩ := multiplyInto_next (rfl : multiplyInto a b reg2 reg3 s = _)
  refine ⟨_, _, _, rfl, product_words_toInt a b, ?_, ?_, hpc, hpsw, ?_, State.readByte_congr hmem, hparams, hfault⟩
  · rw [hread, if_pos rfl]
  · rw [hread]
    by_cases h : reg2 = reg3
    · simp [h]
    · simp [h]
  · intro q hq
    simp only [List.mem_cons, List.not_mem_nil, or_false, not_or] at hq
    rw [hread, if_neg hq.2, if_neg hq.1]

/-- Settles O21: `multiplyInto` of the two registers. -/
theorem mulRegExactSignedProduct : Obligations.MulRegExactSignedProduct := fun reg1 reg2 reg3 s =>
  ⟨decode_mulReg reg1 reg2 reg3, multiplyInto_effects (s.readReg reg2) (s.readReg reg1) reg2 reg3 s⟩

/-- Settles O22: `multiplyInto` of the register and the immediate. -/
theorem mulImm9ExactSignedProduct : Obligations.MulImm9ExactSignedProduct := fun imm9 reg2 reg3 s =>
  ⟨decode_mulImm9 imm9 reg2 reg3,
   imm9Value_toInt imm9 ▸ multiplyInto_effects (s.readReg reg2) (imm9Value imm9) reg2 reg3 s⟩

/-- The low word of an integer taken as 64 bits is the integer taken as 32 bits. -/
theorem ofInt64_low_eq_ofInt (p : Int) : (BitVec.ofInt 64 p).extractLsb' 0 32 = BitVec.ofInt 32 p := by
  apply BitVec.eq_of_toNat_eq
  simp only [BitVec.extractLsb'_toNat, BitVec.toNat_ofInt, Nat.shiftRight_zero]
  omega

/-- The low word of the signed product is the product of the words, where the sign is no matter. -/
theorem low_product_eq_mul (a b : Word) : (BitVec.ofInt 64 (a.toInt * b.toInt)).extractLsb' 0 32 = a * b := by
  rw [ofInt64_low_eq_ofInt, BitVec.ofInt_mul, BitVec.ofInt_toInt, BitVec.ofInt_toInt]

/-- Settles O24: the low word is the wrapped product; with `reg2 = r0` an operand, read from there, is 0 too. -/
theorem mulLowWordIsSignFree : Obligations.MulLowWordIsSignFree := by
  intro reg1 reg2 reg3 s hne
  refine ⟨_, rfl, ?_⟩
  obtain ⟨-, -, -, -, -, hread⟩ :=
    multiplyInto_next (rfl : multiplyInto (s.readReg reg2) (s.readReg reg1) reg2 reg3 s = _)
  refine (congrArg BitVec.toNat (hread reg2)).trans ?_
  rw [if_neg hne, if_pos rfl, low_product_eq_mul]
  by_cases hr : reg2 = 0#5
  · simp [hr]
  · rw [if_neg hr, BitVec.toNat_mul]

end Sys2Proof.Machine
end

section
/-! LD.W and ST.W (R160, R161, R170, R171): the outcomes of a load and of a store by the conditions on the address, and
a load right after a store. -/

namespace Sys2Proof.Machine

/-! ### The conditions on an address -/

theorem aligned4_eq_decide (adr : Word) : aligned4 adr = decide (adr.toNat % 4 = 0) := by
  rw [aligned4, Bool.eq_iff_iff, beq_iff_eq, decide_eq_true_eq, ← BitVec.toNat_inj]
  simp

theorem wordOk_iff (s : State) (adr : Word) :
    WordOk s adr ↔ adr.toNat % 4 = 0 ∧ ∀ a ∈ wordAddrs adr, s.memValid a = true := by
  rw [WordOk, aligned4_eq_decide, decide_eq_true_eq, List.all_eq_true]

/-! ### A word read (R41, R187) -/

theorem memRead_of_misaligned {s : State} {adr : Word} (h : adr.toNat % 4 ≠ 0) :
    memRead s adr = .error (.misalignedAccess adr) := by
  simp [memRead, aligned4_eq_decide, h]

theorem memRead_of_invalid {s : State} {adr : Word} (h : adr.toNat % 4 = 0)
    (hinvalid : ∃ a ∈ wordAddrs adr, s.memValid a = false) : memRead s adr = .error (.accessFault adr) := by
  simp [memRead, aligned4_eq_decide, h, List.all_eq_false.mpr (by simpa using hinvalid)]

theorem memRead_of_wordOk {s : State} {adr : Word} (h : WordOk s adr) : memRead s adr = .ok (s.wordAt adr) := by
  obtain ⟨halign, hvalid⟩ := h
  simp [memRead, halign, hvalid]

/-- What both forms of LD.W do: the three outcomes in the order of the checks (R170, R171). -/
theorem loadWord_outcomes (s : State) (adr : Word) (r : Reg) (len : Word) :
    (adr.toNat % 4 ≠ 0 → loadWord s adr r len = .fault (.misalignedAccess adr)) ∧
    (adr.toNat % 4 = 0 → (∃ a ∈ wordAddrs adr, s.memValid a = false) →
      loadWord s adr r len = .fault (.accessFault adr)) ∧
    (adr.toNat % 4 = 0 → (∀ a ∈ wordAddrs adr, s.memValid a = true) →
      ∃ t, loadWord s adr r len = .next t ∧
        t.readReg r = (if r = 0#5 then 0#32 else
          s.readByte (adr + 3#32) ++ s.readByte (adr + 2#32) ++ s.readByte (adr + 1#32) ++ s.readByte adr) ∧
        t.pc = s.pc + len ∧ t.psw = s.psw ∧ RegsSameBut [r] s t ∧ MemSame s t ∧ RestSame s t) := by
  refine ⟨fun hmis => ?_, fun halign hinv => ?_, fun halign hvalid => ?_⟩
  · simp [loadWord, memRead_of_misaligned hmis, raise]
  · simp [loadWord, memRead_of_invalid halign hinv, raise]
  · have hload : loadWord s adr r len = .next ((s.writeReg r (s.wordAt adr)).advance len) := by
      simp [loadWord, memRead_of_wordOk ((wordOk_iff s adr).mpr ⟨halign, hvalid⟩)]
    exact ⟨_, hload, effects_of_writeReg_any rfl⟩

/-- Settles O26: `loadWord` at the effective address. -/
theorem ldwDisp16LoadsOrFaults : Obligations.LdwDisp16LoadsOrFaults := by
  rintro d reg1 reg2 s adr rfl
  exact ⟨decode_ldwDisp16 d reg1 reg2, rfl, loadWord_outcomes s _ reg2 4#32⟩

/-- Settles O27: `loadWord` at the effective address. -/
theorem ldwDisp23LoadsOrFaults : Obligations.LdwDisp23LoadsOrFaults := by
  rintro d reg1 reg3 s adr rfl
  exact ⟨decode_ldwDisp23 d reg1 reg3, rfl, loadWord_outcomes s _ reg3 6#32⟩

/-! ### A word written (R41, R187) -/

theorem memWrite_of_misaligned {s : State} {adr : Word} (h : adr.toNat % 4 ≠ 0) (v : Word) :
    memWrite s adr v = .error (.misalignedAccess adr) := by
  simp [memWrite, aligned4_eq_decide, h]

theorem memWrite_of_invalid {s : State} {adr : Word} (h : adr.toNat % 4 = 0)
    (hinvalid : ∃ a ∈ wordAddrs adr, s.memValid a = false) (v : Word) :
    memWrite s adr v = .error (.accessFault adr) := by
  simp [memWrite, aligned4_eq_decide, h, List.all_eq_false.mpr (by simpa using hinvalid)]

theorem memWrite_of_code {s : State} {adr : Word} (h : WordOk s adr) (hcode : ∃ a ∈ wordAddrs adr, s.inCode a = true)
    (v : Word) : memWrite s adr v = .error (.storeToCode adr) := by
  obtain ⟨halign, hvalid⟩ := h
  simp [memWrite, halign, hvalid, List.any_eq_true.mpr hcode]

theorem memWrite_of_storeOk {s : State} {adr : Word} (h : StoreOk s adr) (v : Word) :
    memWrite s adr v = .ok (s.putWord adr v) := by
  obtain ⟨⟨halign, hvalid⟩, hcode⟩ := h
  simp [memWrite, halign, hvalid, hcode]

/-- The four bytes of a word put in memory, its low byte first. -/
theorem readByte_putWord_bytes (s : State) (adr v : Word) :
    (s.putWord adr v).readByte adr = v.extractLsb' 0 8 ∧
    (s.putWord adr v).readByte (adr + 1#32) = v.extractLsb' 8 8 ∧
    (s.putWord adr v).readByte (adr + 2#32) = v.extractLsb' 16 8 ∧
    (s.putWord adr v).readByte (adr + 3#32) = v.extractLsb' 24 8 := by
  simp [State.readByte_putWord]

/-- What both forms of ST.W do: the four outcomes in the order of the checks (R160, R161). -/
theorem storeWord_outcomes (s : State) (adr v len : Word) :
    (adr.toNat % 4 ≠ 0 → storeWord s adr v len = .fault (.misalignedAccess adr)) ∧
    (adr.toNat % 4 = 0 → (∃ a ∈ wordAddrs adr, s.memValid a = false) →
      storeWord s adr v len = .fault (.accessFault adr)) ∧
    (adr.toNat % 4 = 0 → (∀ a ∈ wordAddrs adr, s.memValid a = true) → (∃ a ∈ wordAddrs adr, s.inCode a = true) →
      storeWord s adr v len = .fault (.storeToCode adr)) ∧
    (adr.toNat % 4 = 0 → (∀ a ∈ wordAddrs adr, s.memValid a = true) → (∀ a ∈ wordAddrs adr, s.inCode a = false) →
      ∃ t, storeWord s adr v len = .next t ∧
        t.readByte adr = v.extractLsb' 0 8 ∧ t.readByte (adr + 1#32) = v.extractLsb' 8 8 ∧
        t.readByte (adr + 2#32) = v.extractLsb' 16 8 ∧ t.readByte (adr + 3#32) = v.extractLsb' 24 8 ∧
        t.pc = s.pc + len ∧ t.psw = s.psw ∧ RegsSameBut [] s t ∧ MemSameButWord adr s t ∧ RestSame s t) := by
  refine ⟨fun hmis => ?_, fun halign hinv => ?_, fun halign hvalid hcode => ?_, fun halign hvalid hcode => ?_⟩
  · simp [storeWord, memWrite_of_misaligned hmis, raise]
  · simp [storeWord, memWrite_of_invalid halign hinv, raise]
  · simp [storeWord, memWrite_of_code ((wordOk_iff s adr).mpr ⟨halign, hvalid⟩) hcode, raise]
  · have hok : StoreOk s adr :=
      ⟨(wordOk_iff s adr).mpr ⟨halign, hvalid⟩, List.any_eq_false.mpr (by simpa using hcode)⟩
    have hstore : storeWord s adr v len = .next ((s.putWord adr v).advance len) := by
      simp [storeWord, memWrite_of_storeOk hok]
    obtain ⟨hb0, hb1, hb2, hb3⟩ := readByte_putWord_bytes s adr v
    refine ⟨_, hstore, hb0, hb1, hb2, hb3, rfl, rfl, ?_, ?_, ⟨rfl, rfl⟩⟩
    · simp [RegsSameBut]
    · exact fun a ha => State.readByte_putWord_ne s v ha

/-- Settles O28: `storeWord` at the effective address. -/
theorem stwDisp16StoresOrFaults : Obligations.StwDisp16StoresOrFaults := by
  rintro reg2 d reg1 s adr rfl
  exact ⟨decode_stwDisp16 reg2 d reg1, rfl, storeWord_outcomes s _ (s.readReg reg2) 4#32⟩

/-- Settles O29: `storeWord` at the effective address. -/
theorem stwDisp23StoresOrFaults : Obligations.StwDisp23StoresOrFaults := by
  rintro reg3 d reg1 s adr rfl
  exact ⟨decode_stwDisp23 reg3 d reg1, rfl, storeWord_outcomes s _ (s.readReg reg3) 6#32⟩

/-! ### A load right after a store (decision D14) -/

/-- The word put together from the bytes it was taken apart into. -/
theorem wordAt_putWord (s : State) (adr v : Word) : (s.putWord adr v).wordAt adr = v := by
  obtain ⟨hb0, hb1, hb2, hb3⟩ := readByte_putWord_bytes s adr v
  rw [State.wordAt, hb0, hb1, hb2, hb3]
  ext i hi; grind

/-- After a store that completed, a load at its address completes and reads what was stored. -/
theorem loadWord_after_storeWord {s t : State} {adr v len : Word} (h : storeWord s adr v len = .next t) (q : Reg)
    (len' : Word) : ∃ u, loadWord t adr q len' = .next u ∧ u.readReg q = (if q = 0#5 then 0#32 else v) := by
  obtain ⟨⟨halign, hvalid⟩, -, rfl⟩ := storeWord_next h
  have hok : WordOk ((s.putWord adr v).advance len) adr := ⟨halign, hvalid⟩
  have hword : ((s.putWord adr v).advance len).wordAt adr = v := wordAt_putWord s adr v
  refine ⟨_, by rw [loadWord, memRead_of_wordOk hok, hword], ?_⟩
  rw [State.advance_readReg, State.readReg_writeReg, if_pos rfl]

/-- Settles O30: both stores end in `storeWord` and both loads in `loadWord`, at one address. -/
theorem loadSeesTheLatestStore : Obligations.LoadSeesTheLatestStore := by
  intro src reg1 base q d16 d16' d23 d23' s t store load adr hstore hexec hload
  simp only [List.mem_cons, List.not_mem_nil, or_false, Prod.mk.injEq] at hstore hload
  have hcompleted : ∃ len, storeWord s adr (s.readReg src) len = .next t := by
    rcases hstore with ⟨rfl, rfl⟩ | ⟨rfl, rfl⟩
    · exact ⟨4#32, hexec⟩
    · exact ⟨6#32, hexec⟩
  obtain ⟨len, hcompleted⟩ := hcompleted
  rcases hload with ⟨rfl, rfl⟩ | ⟨rfl, rfl⟩
  · exact loadWord_after_storeWord hcompleted q 4#32
  · exact loadWord_after_storeWord hcompleted q 6#32

end Sys2Proof.Machine
end

section
/-! The opcode map (R80, R81): its rows field by field, what the decoder admits, and the spec's sample words. -/

namespace Sys2Proof.Machine

/-! ### Disjoint rows -/

/-- Two rows that fix some common bit to different values have no pattern in common. -/
theorem not_both_match {a b : OpcodeRow} (h : a.value &&& b.mask ≠ b.value &&& a.mask) (insn : BitVec 48) :
    ¬ (a.Matches insn ∧ b.Matches insn) := by
  rintro ⟨⟨ha, -⟩, hb, -⟩
  apply h
  rw [← ha, ← hb, BitVec.and_assoc, BitVec.and_assoc, BitVec.and_comm a.mask]

/-- Settles O34: every two rows fix some common bit to different values. -/
theorem opcodeRowsAreDisjoint : Obligations.OpcodeRowsAreDisjoint := by
  have hbits : opcodeRows.Pairwise (fun a b => a.value &&& b.mask ≠ b.value &&& a.mask) := by decide
  exact hbits.imp not_both_match

/-! ### Rows field by field -/

/-- A halfword matches a mask and a value when its three fields do. -/
theorem half_and_eq_iff (hw m v : Half) :
    hw &&& m = v ↔ top5 hw &&& m.extractLsb' 11 5 = v.extractLsb' 11 5 ∧
      op6 hw &&& m.extractLsb' 5 6 = v.extractLsb' 5 6 ∧ low5 hw &&& m.extractLsb' 0 5 = v.extractLsb' 0 5 := by
  have hand : hw &&& m = formatI (top5 hw &&& top5 m) (op6 hw &&& op6 m) (low5 hw &&& low5 m) := by
    rw [← formatI_fields (hw &&& m)]
    simp only [top5, op6, low5, BitVec.extractLsb'_and]
  constructor
  · rintro rfl
    simp only [top5, op6, low5, BitVec.extractLsb'_and, and_self]
  · rintro ⟨htop, hop, hlow⟩
    rw [hand, ← formatI_fields v]
    exact congr (congr (congrArg formatI htop) hop) hlow

/-- A pattern matches a mask and a value when its three halfwords do. -/
theorem insnBits_and_eq_iff (hw0 hw1 hw2 : Half) (m v : BitVec 48) :
    insnBits hw0 hw1 hw2 &&& m = v ↔ hw0 &&& m.extractLsb' 0 16 = v.extractLsb' 0 16 ∧
      hw1 &&& m.extractLsb' 16 16 = v.extractLsb' 16 16 ∧ hw2 &&& m.extractLsb' 32 16 = v.extractLsb' 32 16 := by
  have h0 : (insnBits hw0 hw1 hw2).extractLsb' 0 16 = hw0 := by ext i hi; simp [insnBits]; grind
  have h1 : (insnBits hw0 hw1 hw2).extractLsb' 16 16 = hw1 := by ext i hi; simp [insnBits]; grind
  have h2 : (insnBits hw0 hw1 hw2).extractLsb' 32 16 = hw2 := by ext i hi; simp [insnBits]; grind
  have hsplit : ∀ x : BitVec 48, insnBits (x.extractLsb' 0 16) (x.extractLsb' 16 16) (x.extractLsb' 32 16) = x :=
    fun x => by ext i hi; simp [insnBits]; grind
  constructor
  · rintro rfl
    simp only [BitVec.extractLsb'_and, h0, h1, h2, and_self]
  · rintro ⟨e0, e1, e2⟩
    rw [← hsplit v, ← e0, ← e1, ← e2, ← hsplit (insnBits hw0 hw1 hw2 &&& m)]
    simp only [BitVec.extractLsb'_and, h0, h1, h2]

theorem top5_of_insnBits (hw0 hw1 hw2 : Half) : (insnBits hw0 hw1 hw2).extractLsb' 11 5 = top5 hw0 := by
  ext i hi; simp [insnBits, top5]; grind

/-! The masks of a field that leave all of it, and those that leave a shorter field. -/

theorem and_allOnes5 (x : BitVec 5) : x &&& 31#5 = x := BitVec.and_allOnes

theorem and_allOnes6 (x : BitVec 6) : x &&& 63#6 = x := BitVec.and_allOnes

theorem op4_bcond_iff (hw : Half) : op4 hw = 0b1011#4 ↔ op6 hw &&& 60#6 = 44#6 := by
  rw [op4_eq]; generalize op6 hw = x; revert x; decide

theorem op5_jr_iff (hw : Half) : op5 hw = 0b11110#5 ↔ op6 hw &&& 62#6 = 60#6 := by
  rw [op5_eq]; generalize op6 hw = x; revert x; decide

theorem extract_mulImm9_iff (hw : Half) : hw.extractLsb' 6 5 = 0b01001#5 ↔ op6 hw &&& 62#6 = 18#6 := by
  rw [← op5, op5_eq]; generalize op6 hw = x; revert x; decide

theorem bit0_eq_zero_iff (hw : Half) : bit0 hw = 0b0#1 ↔ low5 hw &&& 1#5 = 0#5 := by
  rw [bit0_eq_low5]; generalize low5 hw = x; revert x; decide

theorem bit0_eq_one_iff (hw : Half) : bit0 hw = 0b1#1 ↔ low5 hw &&& 1#5 = 1#5 := by
  rw [bit0_eq_low5]; generalize low5 hw = x; revert x; decide

theorem extract_low2_iff (hw : Half) : hw.extractLsb' 0 2 = 0b00#2 ↔ low5 hw &&& 3#5 = 0#5 := by
  have hlow : hw.extractLsb' 0 2 = (low5 hw).extractLsb' 0 2 := by ext i hi; simp [low5]
  rw [hlow]; generalize low5 hw = x; revert x; decide

theorem extract_mulReg_iff (hw : Half) : hw.extractLsb' 0 11 = 0b01000100000#11 ↔ op6 hw = 17#6 ∧ low5 hw = 0#5 := by
  have hlow : hw.extractLsb' 0 11 = op6 hw ++ low5 hw := by ext i hi; simp [op6, low5]; grind
  rw [hlow]
  generalize op6 hw = x
  generalize low5 hw = y
  revert x y
  decide

/-! ### What the decoder admits -/

theorem isSome_ite_some_iff {α : Type} {c : Prop} [Decidable c] (a : α) (o : Option α) :
    (if c then some a else o).isSome = true ↔ c ∨ o.isSome = true := by
  split <;> simp [*]

/-- Settles O33: both sides read as conditions on the fields. The decoder's short MOVs end its search whatever `reg2`
is, and no other row has their opcode; past them each side is a plain alternative of rows, in two orders. -/
theorem decodesExactlyTheOpcodeMap : Obligations.DecodesExactlyTheOpcodeMap := by
  intro hw0 hw1 hw2
  simp only [opcodeRows, List.cons_append, List.nil_append, List.mem_cons, List.not_mem_nil, or_false, exists_eq_or_imp,
    ↓existsAndEq, true_and, OpcodeRow.Matches, insnBits_and_eq_iff, half_and_eq_iff, top5_of_insnBits,
    Nat.reduceAdd, Nat.reduceLeDiff, Std.le_refl, zero_add, BitVec.extractLsb'_extractLsb'_of_le,
    BitVec.reduceExtractLsb', BitVec.extractLsb'_zero, BitVec.and_zero, and_allOnes5, and_allOnes6, and_true, and_self,
    Bool.false_eq_true, IsEmpty.forall_iff, forall_const]
  by_cases hmov : op6 hw0 = 0#6
  · simp [decode, op4_bcond_iff, hmov, apply_ite Option.isSome]
  by_cases hmovi : op6 hw0 = 16#6
  · simp [decode, op4_bcond_iff, hmovi, apply_ite Option.isSome]
  simp only [decode, isSome_ite_some_iff, hmov, hmovi, if_false, op4_bcond_iff, op5_jr_iff, extract_mulImm9_iff,
    bit0_eq_zero_iff, bit0_eq_one_iff, extract_low2_iff, extract_mulReg_iff, Option.isSome_none, Bool.false_eq_true,
    false_and, true_and, or_false, false_or]
  exact iff_of_eq (by ac_rfl)

/-! ### The spec's sample words (95_test_vectors.md) -/

/-- Settles O37: each word is decoded as its listing says. -/
theorem sampleWordsDecode : Obligations.SampleWordsDecode := by
  unfold Obligations.SampleWordsDecode
  decide

/-- Settles O38: each word has a fixed bit wrong, or is a short MOV to `r0`. -/
theorem reservedSampleWordsAreRefused : Obligations.ReservedSampleWordsAreRefused := by
  unfold Obligations.ReservedSampleWordsAreRefused
  decide

end Sys2Proof.Machine
end
